-- ==== Sys2Proof/Word.lean ====
section
/-! DEFINITION. The two word types of the DPC: a 32-bit register word (00_scope.md R5, `REG_BITS`) and a
16-bit pixel word (R2, `STORAGE_BITS`). -/

namespace Sys2Proof

/-- A 32-bit word: a register, a command word, a pixel-memory word address, an element count (R5). -/
abbrev Word := BitVec 32

/-- A 16-bit pixel word; its identity is its bit pattern (10_state.md R32, 40_pixelformat.md R80). -/
abbrev Pixel := BitVec 16

end Sys2Proof
end

