-- ==== Sys2Proof/Config.lean ====
section
/-! DEFINITION. What is fixed for this hardware (the pixel format of 00_scope.md R2, the lane count of R5) and
what the spec leaves open as a value: the content of pixel memory at power-up (70_reset_and_hazards.md R142). -/

namespace Sys2Proof

/-- One channel of a packed pixel format: its stored width and the offset of its lowest bit (R2). -/
structure Channel where
  bits : Nat
  shift : Nat
  deriving DecidableEq, Repr

/-- The parameters of a packed pixel format (R2, R3). -/
structure PixelFormat where
  storageBits : Nat
  alpha : Channel
  red : Channel
  green : Channel
  blue : Channel
  deriving DecidableEq, Repr

/-- ARGB1555, the one format of this hardware: "16-bit word, bit 15 = alpha (1 bit), bits 10–14 = red (5 bits),
bits 5–9 = green (5 bits), bits 0–4 = blue (5 bits)" (R2). -/
def Config.argb1555 : PixelFormat where
  storageBits := 16
  alpha := ⟨1, 15⟩
  red := ⟨5, 10⟩
  green := ⟨5, 5⟩
  blue := ⟨5, 0⟩

/-- `CHAN_BITS`, the width of a raw channel input (R5). -/
def Config.chanBits : Nat := 8

/-- `LANES` (R5, D27): informative, no result depends on it (41_compositor.md R93). -/
def Config.lanes : Nat := 8

/-- The order of the two bytes of a pixel word in a byte-addressed view, the open parameter `PIXEL_BYTE_ORDER`
(20_memory.md R43, D9). The DPC itself never splits a word. -/
inductive ByteOrder where
  | little
  | big
  deriving DecidableEq, Repr

/-- `PIXEL_BYTE_ORDER`'s default (00_scope.md R5, 20_memory.md R43): "with `little` (the default)". -/
def Config.pixelByteOrder : ByteOrder := .little

/-- FREE VALUE (log 3): what a pixel word holds that no agent has written since power-up, by word address. "any
16-bit value, chosen freely and independently per word" (70_reset_and_hazards.md R142, U6); never 0 by assumption.
It has no body, so no proof can see a value of it. -/
opaque Config.powerUp : Nat → Pixel

end Sys2Proof
end

