-- ==== Sys2Proof/Machine/State.lean ====
section
/-! DEFINITION. The state of the machine as plain data: the registers of each engine (10_state.md R10), pixel memory
(20_memory.md R40), and the environment's data that decide what happens next (INVENTORY.md, "State"). -/

namespace Sys2Proof.Machine

/-- STATUS.ERR (10_state.md R12, 60_exceptions.md R120). "A model's ERR type needs only three values" (U8). -/
inductive ErrCode where
  /-- Code 0, NONE. -/
  | noError
  /-- Code 1, ILLEGAL_CMD. -/
  | illegalCmd
  /-- Code 2, DIV_ZERO. -/
  | divZero
  deriving DecidableEq, Repr

/-- The registers of one engine (10_state.md R10), and nothing else (R29). CMD holds nothing (R11) and STATUS is the
view of `t` and `err` (R12), so neither is a field of its own. -/
structure Engine where
  /-- STATUS.T, bit 0 (R12, R26). -/
  t : Bool
  /-- STATUS.ERR, bits 7:4 (R12). -/
  err : ErrCode
  /-- ECMD (R13). -/
  ecmd : Word
  /-- CH (R14). -/
  ch : Word
  /-- PX, 16 bits (R15). -/
  px : Pixel
  /-- UC (R16). -/
  uc : Word
  /-- DST (R17). -/
  dst : Word
  /-- SRC (R17). -/
  src : Word
  /-- CNT, unsigned (R18). -/
  cnt : Word
  /-- SC, signed (R19). -/
  sc : Word
  /-- AX (R20). -/
  aX : Word
  /-- AY (R20). -/
  aY : Word
  /-- AW (R20). -/
  aW : Word
  /-- AH (R20). -/
  aH : Word
  /-- BX (R21). -/
  bX : Word
  /-- BY (R21). -/
  bY : Word
  /-- BW (R21). -/
  bW : Word
  /-- BH (R21). -/
  bH : Word
  /-- QX (R22). -/
  qX : Word
  /-- QY (R22). -/
  qY : Word
  /-- QW (R22). -/
  qW : Word
  /-- QH (R22). -/
  qH : Word
  deriving DecidableEq, Repr

/-- The register names of the window (10_state.md R10). -/
inductive Reg where
  | cmd | status | ecmd | ch | px | uc | dst | src | cnt | sc
  | aX | aY | aW | aH | bX | bY | bW | bH | qX | qY | qW | qH
  deriving DecidableEq, Repr

/-- Pixel memory (20_memory.md R40): the words that have been written, by word address, addresses strictly rising
(log 3, log 12). -/
abbrev Memory := List (Nat × Pixel)

/-- The canonical form of pixel memory: addresses strictly rising and inside the 32-bit word address space, so that
equal memories are equal lists. -/
abbrev Memory.wf (m : Memory) : Prop :=
  List.Pairwise (fun a b => a < b) (m.map Prod.fst) ∧ ∀ a ∈ m.map Prod.fst, a < 2 ^ 32

/-- A range of word addresses that hold storage (20_memory.md R47, `Backed`; log 4). -/
structure Region where
  base : Nat
  size : Nat
  deriving DecidableEq, Repr

/-- A row: `len` consecutive pixel words from `base`, wrapping at 2^32 (20_memory.md R42). -/
structure Span where
  base : Word
  len : Nat
  deriving DecidableEq, Repr

/-- The access set of an operation on pixel memory: the rows it reads and the rows it writes (20_memory.md R46). -/
structure Access where
  reads : List Span
  writes : List Span
  deriving DecidableEq, Repr

/-- A CMD write that has begun and not yet ended, on the engine with this index (20_memory.md R50, log 7). -/
structure InFlight where
  engine : Nat
  access : Access
  deriving DecidableEq, Repr

/-- One transaction of the outside world (10_state.md R31, 30_encoding.md R66, 20_memory.md R41). -/
inductive Event where
  /-- A host write of `value` to register `number` of engine `engine`; it begins and ends in this step. -/
  | write (engine number : Nat) (value : Word)
  /-- A host read of register `number` of engine `engine`. -/
  | read (engine number : Nat)
  /-- Reset of engine `engine` (70_reset_and_hazards.md R140). -/
  | reset (engine : Nat)
  /-- A write of `value` to CMD of engine `engine` that begins here and ends at `endCmd engine`, so that what stands
  between the two overlaps it in time (20_memory.md R50). -/
  | beginCmd (engine : Nat) (value : Word)
  /-- The end of the CMD write that `beginCmd engine` began. -/
  | endCmd (engine : Nat)
  /-- The host puts values into pixel words `addr`, `addr + 1`, … by platform means (the script line `pm`, R66), wrapping
  at 2^32 (log 21). -/
  | pmWrite (addr : Word) (values : List Pixel)
  /-- The host reads a pixel word by platform means (R41). -/
  | pmRead (addr : Word)
  deriving DecidableEq, Repr

/-- What a read returned to the host (10_state.md R31). -/
inductive Response where
  | reg (engine number : Nat) (value : Word)
  | pixel (addr : Word) (value : Pixel)
  deriving DecidableEq, Repr

/-- The whole machine: all engines, pixel memory, and the environment's data. -/
structure State where
  /-- The engines with a lower index than `eng`, in index order (60_exceptions.md R131, log 8). -/
  before : List Engine
  /-- The engine whose window the present transaction addresses; its index is the length of `before`. -/
  eng : Engine
  /-- The engines with a higher index than `eng`, in index order. -/
  after : List Engine
  /-- Pixel memory, shared by all engines (20_memory.md R40). -/
  mem : Memory
  /-- The platform's predicate Backed (20_memory.md R47, log 4); no step changes it. -/
  backed : List Region
  /-- The CMD writes that have begun and not ended (log 7). -/
  inFlight : List InFlight
  /-- The transactions still to come, the next one first (log 1). -/
  script : List Event
  /-- What reads have returned so far, oldest first (log 11). -/
  responses : List Response
  deriving DecidableEq, Repr

/-- Why the machine stops with a fault. Each is a contract violation the hardware does not detect (STATUS.ERR stays
0) and for which the spec tells a model to fault. -/
inductive Fault where
  /-- Raised by CIA, MCC and a platform access when a word of the access set is not backed (20_memory.md R48, U2; for
  the platform's own access log 17). Safe. -/
  | unbackedAccess
  /-- Raised by CIA when its two rows overlap and are not the same row (20_memory.md R56, U5). Safe. -/
  | rowOverlap
  /-- Raised by CIA, MCC and a platform access that conflicts with a command still in flight (20_memory.md R50, U3).
  Safe. -/
  | dataRace
  deriving DecidableEq, Repr

/-- Why a transaction has no meaning. -/
inductive Refusal where
  /-- Raised by `exec` for a command that has no meaning yet (none is left). Safe. -/
  | notModelled (mnemonic : String)
  /-- Raised by a transaction that names an engine the system does not have (60_exceptions.md R131, log 10). Safe. -/
  | noSuchEngine
  /-- Raised by a transaction on a window whose CMD write has not ended, reset included: "a model gives the window a
  single sequential stream of transactions" (10_state.md R31, 70_reset_and_hazards.md R140, D32, log 9). Safe. -/
  | windowBusy
  /-- Raised by the end of a CMD write that did not begin (log 10). Safe. -/
  | nothingInFlight
  deriving DecidableEq, Repr

/-- What a step, a command or a transaction ends in. -/
abbrev Result := Host.Outcome State Fault Refusal

/-- The engine right after reset: every register reads 0x00000000 (10_state.md R30). -/
def Engine.atReset : Engine where
  t := false
  err := .noError
  ecmd := 0
  ch := 0
  px := 0
  uc := 0
  dst := 0
  src := 0
  cnt := 0
  sc := 0
  aX := 0
  aY := 0
  aW := 0
  aH := 0
  bX := 0
  bY := 0
  bW := 0
  bH := 0
  qX := 0
  qY := 0
  qW := 0
  qH := 0

/-- The machine right after power-up and reset (10_state.md R30, 70_reset_and_hazards.md R140, R142): one engine (the
default of N_ENGINES), no pixel word written, every word backed (log 4), no transaction yet. -/
def State.reset : State where
  before := []
  eng := Engine.atReset
  after := []
  mem := []
  backed := [⟨0, 4294967296⟩]
  inFlight := []
  script := []
  responses := []

end Sys2Proof.Machine
end

