-- ==== Sys2Proof/Machine/Ops.lean ====
section
/-! DEFINITION. The named operations over pixel memory, over the register window and over the engines, and error
entry with the one way out of it. -/

namespace Sys2Proof.Machine

/-! ### Pixel memory (20_memory.md) -/

/-- The word stored at an address, if one has been written. -/
def Memory.lookup : Memory → Nat → Option Pixel
  | [], _ => none
  | (b, p) :: rest, a => if a = b then some p else Memory.lookup rest a

/-- Store a word; the addresses stay strictly rising. -/
def Memory.store : Memory → Nat → Pixel → Memory
  | [], a, v => [(a, v)]
  | (b, p) :: rest, a, v =>
    if a < b then (a, v) :: (b, p) :: rest
    else if a = b then (a, v) :: rest
    else (b, p) :: Memory.store rest a v

/-- `MemRead(addr, 1)` (00_scope.md section 6, 20_memory.md R45): the last value written, or the free content of a
word nothing has written (70_reset_and_hazards.md R142, log 3). -/
def readPixel (m : Memory) (a : Word) : Pixel :=
  (Memory.lookup m a.toNat).getD (Config.powerUp a.toNat)

/-- `MemWrite(addr, 1, v)` (00_scope.md section 6, 20_memory.md R45). -/
def writePixel (m : Memory) (a : Word) (v : Pixel) : Memory :=
  Memory.store m a.toNat v

/-- The address of element `i` of a row: `(U(base) + i) mod 2^32`, the base never scaled (20_memory.md R42). -/
def elementAddr (base : Word) (i : Nat) : Word := base + BitVec.ofNat 32 i

/-- Put values into consecutive pixel words (the script line `pm`, 30_encoding.md R66). DESIGN CHOICE (log 21): a line that
runs past word 0xFFFFFFFF goes on at word 0, as R42 says of the rows of DST and SRC; R66 does not say. -/
def writeRow (m : Memory) (base : Word) : List Pixel → Memory
  | [] => m
  | v :: vs => writeRow (writePixel m base v) (base + 1) vs

/-- A byte of the byte-addressed view of pixel memory: word `addr` occupies bytes `2*addr` and `2*addr + 1`, in the
order the platform's parameter says, `little` where it says nothing (20_memory.md R43, 00_scope.md R5, D9). -/
def readByte (m : Memory) (byteAddr : BitVec 33) (order : ByteOrder := Config.pixelByteOrder) : BitVec 8 :=
  let p := readPixel m (byteAddr.extractLsb' 1 32)
  let odd := byteAddr.getLsbD 0
  match order with
  | .little => if odd then p.extractLsb' 8 8 else p.extractLsb' 0 8
  | .big => if odd then p.extractLsb' 0 8 else p.extractLsb' 8 8

/-! ### Backing and access sets (20_memory.md R46 to R50) -/

/-- `Backed(addr)` (20_memory.md R47). -/
def wordBacked (regions : List Region) (a : Word) : Bool :=
  regions.any fun r => decide (r.base ≤ a.toNat) && decide (a.toNat < r.base + r.size)

/-- Every one of the first `n` words from `base` is backed. -/
def rowBacked (regions : List Region) (base : Word) : Nat → Bool
  | 0 => true
  | n + 1 => wordBacked regions (elementAddr base n) && rowBacked regions base n

/-- Every row of an access set is backed (20_memory.md R48). -/
def accessBacked (regions : List Region) (acc : Access) : Bool :=
  (acc.reads ++ acc.writes).all fun sp => rowBacked regions sp.base sp.len

/-- An address lies in a row (20_memory.md R42, with the wrap). -/
def Span.covers (sp : Span) (a : Word) : Bool := decide ((a - sp.base).toNat < sp.len)

/-- A word address is in the read part of an access set (20_memory.md R46). -/
def Access.readsWord (acc : Access) (a : Word) : Bool := acc.reads.any fun sp => sp.covers a

/-- A word address is in the written part of an access set (20_memory.md R46). -/
def Access.writesWord (acc : Access) (a : Word) : Bool := acc.writes.any fun sp => sp.covers a

/-- Two rows have an address in common: neither is empty and the base of one lies in the other. -/
def Span.meets (p q : Span) : Bool :=
  decide (0 < p.len) && decide (0 < q.len) && (p.covers q.base || q.covers p.base)

/-- Some row of the first list has an address in common with some row of the second. -/
def spansMeet (ps qs : List Span) : Bool := ps.any fun p => qs.any fun q => p.meets q

/-- Two access sets conflict: "some word address is in the access set of both … and at least one of them writes that
word" (20_memory.md R50). -/
def Access.conflicts (x y : Access) : Bool :=
  spansMeet x.writes y.writes || spansMeet x.writes y.reads || spansMeet x.reads y.writes

/-- The access set of an operation that touches no pixel memory. -/
def Access.empty : Access := ⟨[], []⟩

/-- An access set conflicts with a command that is still in flight (20_memory.md R50, R51). -/
def racesInFlight (s : State) (acc : Access) : Bool := s.inFlight.any fun f => acc.conflicts f.access

/-- The contract violations of an operation on pixel memory, before it has any effect: an unbacked word (20_memory.md
R48, U2), a data race (R50, U3). None when the operation is defined. -/
def accessFault (s : State) (acc : Access) : Option Fault :=
  if accessBacked s.backed acc then
    if racesInFlight s acc then some .dataRace else none
  else some .unbackedAccess

/-! ### The engines (60_exceptions.md R131) -/

/-- All engines, in index order. -/
def State.engines (s : State) : List Engine := s.before ++ s.eng :: s.after

/-- The index of the engine whose window is addressed. -/
def State.index (s : State) : Nat := s.before.length

/-- Address the window of engine `k`; none when the system has no engine `k`. No register changes. -/
def State.focus (s : State) (k : Nat) : Option State :=
  match s.engines.drop k with
  | e :: rest => some { s with before := s.engines.take k, eng := e, after := rest }
  | [] => none

/-- Replace the registers of the addressed engine. -/
def State.withEng (s : State) (e : Engine) : State := { s with eng := e }

/-- The CMD write of engine `k` has begun and not ended. -/
def State.busy (s : State) (k : Nat) : Bool := s.inFlight.any fun f => f.engine == k

/-! ### The register window (10_state.md R10 to R23) -/

/-- The code of STATUS.ERR (60_exceptions.md R120). -/
def errCode : ErrCode → BitVec 4
  | .noError => 0
  | .illegalCmd => 1
  | .divZero => 2

/-- STATUS (10_state.md R12): T in bit 0, ERR in bits 7:4, every other bit 0. -/
def statusWord (e : Engine) : Word :=
  (BitVec.ofBool e.t).setWidth 32 ||| ((errCode e.err).setWidth 32 <<< 4)

/-- The number of a register (10_state.md R10). -/
def regNumber : Reg → Nat
  | .cmd => 0x00
  | .status => 0x01
  | .ecmd => 0x02
  | .ch => 0x03
  | .px => 0x04
  | .uc => 0x05
  | .dst => 0x06
  | .src => 0x07
  | .cnt => 0x08
  | .sc => 0x09
  | .aX => 0x0A
  | .aY => 0x0B
  | .aW => 0x0C
  | .aH => 0x0D
  | .bX => 0x0E
  | .bY => 0x0F
  | .bW => 0x10
  | .bH => 0x11
  | .qX => 0x12
  | .qY => 0x13
  | .qW => 0x14
  | .qH => 0x15

/-- The 22 registers, in the order of their numbers. -/
def allRegs : List Reg :=
  [.cmd, .status, .ecmd, .ch, .px, .uc, .dst, .src, .cnt, .sc, .aX, .aY, .aW, .aH, .bX, .bY, .bW, .bH,
    .qX, .qY, .qW, .qH]

/-- The register with a number; none for a reserved number (10_state.md R23). -/
def regOfNumber (k : Nat) : Option Reg := allRegs.find? fun r => regNumber r == k

/-- The byte offset of a register on a byte-addressed host bus, from the window's base (10_state.md R10). -/
def regByteOffset (r : Reg) : Nat := 4 * regNumber r

/-- What a host read of a register returns (10_state.md R11 to R22). -/
def readReg (e : Engine) : Reg → Word
  | .cmd => 0
  | .status => statusWord e
  | .ecmd => e.ecmd
  | .ch => e.ch
  | .px => e.px.setWidth 32
  | .uc => e.uc
  | .dst => e.dst
  | .src => e.src
  | .cnt => e.cnt
  | .sc => e.sc
  | .aX => e.aX
  | .aY => e.aY
  | .aW => e.aW
  | .aH => e.aH
  | .bX => e.bX
  | .bY => e.bY
  | .bW => e.bW
  | .bH => e.bH
  | .qX => e.qX
  | .qY => e.qY
  | .qW => e.qW
  | .qH => e.qH

/-- What a host write stores in the registers: PX keeps bits 15:0 (10_state.md R15), a read-only register ignores the
write (R12, R13, R16, R22), CMD stores nothing (R11; the command it starts is `commandWrite`'s). -/
def writeReg (e : Engine) (r : Reg) (v : Word) : Engine :=
  match r with
  | .cmd | .status | .ecmd | .uc | .qX | .qY | .qW | .qH => e
  | .ch => { e with ch := v }
  | .px => { e with px := v.setWidth 16 }
  | .dst => { e with dst := v }
  | .src => { e with src := v }
  | .cnt => { e with cnt := v }
  | .sc => { e with sc := v }
  | .aX => { e with aX := v }
  | .aY => { e with aY := v }
  | .aW => { e with aW := v }
  | .aH => { e with aH := v }
  | .bX => { e with bX := v }
  | .bY => { e with bY := v }
  | .bW => { e with bW := v }
  | .bH => { e with bH := v }

/-- What a host read of a register number returns; a reserved number reads 0 (10_state.md R23). -/
def readNumber (e : Engine) (k : Nat) : Word :=
  match regOfNumber k with
  | some r => readReg e r
  | none => 0

/-! ### Errors (60_exceptions.md) -/

/-- "halted": `STATUS.ERR ≠ 0` (10_state.md R12, 60_exceptions.md R126). -/
def Engine.halted (e : Engine) : Bool := decide (e.err ≠ .noError)

/-- Error entry, `raise E(word)`: STATUS.ERR and ECMD are written and nothing else (60_exceptions.md R124). -/
def raiseError (code : ErrCode) (word : Word) (s : State) : State :=
  s.withEng { s.eng with err := code, ecmd := word }

/-- Reset of the addressed engine, the only exit from the halted state (60_exceptions.md R127): every register takes
its reset value, pixel memory keeps its content (70_reset_and_hazards.md R140, R142). -/
def resetEngine (s : State) : State := s.withEng Engine.atReset

end Sys2Proof.Machine
end

