-- ==== Sys2Proof/Machine/Operands.lean ====
section
/-! DEFINITION. The readings of the fixed-function operand registers (30_encoding.md R61, 10_state.md R24) and the
integer primitives of 00_scope.md section 5. -/

namespace Sys2Proof.Machine

/-- `S(r)`: the signed reading, two's complement (00_scope.md section 5, G1, log 16). -/
def signed (r : Word) : Int := r.toInt

/-- `U(r)`: the unsigned reading (00_scope.md section 5). -/
def unsigned (r : Word) : Nat := r.toNat

/-- `wrap32(z)`, as the pattern a register stores: the integer reduced modulo 2^32 (00_scope.md section 5,
42_geometry.md R111). -/
def wrap32 (z : Int) : Word := BitVec.ofInt 32 z

/-- `tdiv(a, b)`: the quotient rounded toward zero (00_scope.md section 5, 42_geometry.md R112). -/
def truncDiv (a b : Int) : Int := Int.sign a * Int.sign b * ((a.natAbs / b.natAbs : Nat) : Int)

/-- A Point (42_geometry.md R100). -/
structure Point where
  x : Int
  y : Int
  deriving DecidableEq, Repr

/-- A Rectangle: origin, width, height (42_geometry.md R101). -/
structure Rect where
  x : Int
  y : Int
  w : Int
  h : Int
  deriving DecidableEq, Repr

/-- Operand A read as a Point; AW and AH are not looked at (10_state.md R20). -/
def pointA (e : Engine) : Point := ⟨signed e.aX, signed e.aY⟩

/-- Operand B read as a Point (10_state.md R21). -/
def pointB (e : Engine) : Point := ⟨signed e.bX, signed e.bY⟩

/-- Operand A read as a Rectangle (10_state.md R20). -/
def rectA (e : Engine) : Rect := ⟨signed e.aX, signed e.aY, signed e.aW, signed e.aH⟩

/-- Operand B read as a Rectangle (10_state.md R21). -/
def rectB (e : Engine) : Rect := ⟨signed e.bX, signed e.bY, signed e.bW, signed e.bH⟩

/-- The scalar of PMUL and PDIV (10_state.md R19). -/
def scalar (e : Engine) : Int := signed e.sc

/-- Write a Point result: QX and QY; QW and QH keep their values (10_state.md R22). -/
def setQPoint (e : Engine) (p : Point) : Engine := { e with qX := wrap32 p.x, qY := wrap32 p.y }

/-- Write a Rectangle result: QX, QY, QW and QH (10_state.md R22). -/
def setQRect (e : Engine) (r : Rect) : Engine :=
  { e with qX := wrap32 r.x, qY := wrap32 r.y, qW := wrap32 r.w, qH := wrap32 r.h }

/-- The four raw channels in CH: a in 31:24, r in 23:16, g in 15:8, b in 7:0 (10_state.md R14). -/
def rawAlpha (ch : Word) : BitVec 8 := ch.extractLsb' 24 8
@[inherit_doc rawAlpha] def rawRed (ch : Word) : BitVec 8 := ch.extractLsb' 16 8
@[inherit_doc rawAlpha] def rawGreen (ch : Word) : BitVec 8 := ch.extractLsb' 8 8
@[inherit_doc rawAlpha] def rawBlue (ch : Word) : BitVec 8 := ch.extractLsb' 0 8

/-- `X_MASK = ((1 << X_BITS) - 1) << X_SHIFT` (00_scope.md R4). -/
def channelMask (c : Channel) : Pixel := ((1#16 <<< c.bits) - 1#16) <<< c.shift

/-- `ALPHA_MASK` (00_scope.md R4). -/
def alphaMask : Pixel := channelMask Config.argb1555.alpha

/-- `RGB_MASK = RED_MASK | GREEN_MASK | BLUE_MASK` (00_scope.md R4, 90_conflicts.md C5). -/
def rgbMask : Pixel :=
  channelMask Config.argb1555.red ||| channelMask Config.argb1555.green ||| channelMask Config.argb1555.blue

/-- The row `dst[0..n)` of CIA, `buf[0..n)` of MCC (10_state.md R17, R18). -/
def dstRow (e : Engine) : Span := ⟨e.dst, unsigned e.cnt⟩

/-- The row `src[0..n)` of CIA (10_state.md R17, R18). -/
def srcRow (e : Engine) : Span := ⟨e.src, unsigned e.cnt⟩

/-- The access set of CIA, its whole rows independent of the data (20_memory.md R46). -/
def ciaAccess (e : Engine) : Access := ⟨[srcRow e, dstRow e], [dstRow e]⟩

/-- The access set of MCC (20_memory.md R46). -/
def mccAccess (e : Engine) : Access := ⟨[dstRow e], [dstRow e]⟩

end Sys2Proof.Machine
end

