-- ==== Sys2Proof/Machine/Flags.lean ====
section
/-! DEFINITION. The one flag, STATUS.T, and the four truth values it takes (10_state.md R26). -/

namespace Sys2Proof.Machine

/-- Write STATUS.T (10_state.md R26). -/
def setT (e : Engine) (b : Bool) : Engine := { e with t := b }

/-- "a Pixel converts to a boolean true iff its raw bit pattern is non-zero" (40_pixelformat.md R84). -/
def pixelTruth (p : Pixel) : Bool := decide (p ≠ 0)

/-- The alpha test of the Compositor, `(p & ALPHA_MASK) != 0` (41_compositor.md R90). It is no flag: nothing stores
it. -/
def alphaTest (p : Pixel) : Bool := decide (p &&& alphaMask ≠ 0)

/-- A rectangle is non-empty iff `w > 0` and `h > 0` (42_geometry.md R101, R110). -/
def rectTruth (r : Rect) : Bool := decide (0 < r.w) && decide (0 < r.h)

/-- The signed 64-bit key of a Point: x in bits 63:32, the 32-bit pattern of y in bits 31:0 (42_geometry.md R106,
D18). -/
def pointKey (x y : Word) : Int := signed x * 2 ^ 32 + (unsigned y : Int)

/-- Point A is less than Point B in the packed-key order (42_geometry.md R106). -/
def pointLess (ax ay bx bY : Word) : Bool := decide (pointKey ax ay < pointKey bx bY)

end Sys2Proof.Machine
end

