-- ==== Sys2Proof/Machine/Compositor.lean ====
section
/-! DEFINITION. The Compositor unit: CIA, MCC (41_compositor.md). A row command is defined by its final state, not by
an order of accesses (20_memory.md R55, log 13). The lane-wise executor of R93 is in Lanes.lean. -/

namespace Sys2Proof.Machine

/-- One element of CIA: "replace `dst[i]` with `src[i]`" when the source's alpha bit is set, otherwise leave it
(41_compositor.md R91). -/
def ciaElement (m : Memory) (dst src : Word) (i : Nat) : Memory :=
  if alphaTest (readPixel m (elementAddr src i)) then
    writePixel m (elementAddr dst i) (readPixel m (elementAddr src i))
  else m

/-- The first `n` elements of CIA (41_compositor.md R91). -/
def ciaRow (m : Memory) (dst src : Word) : Nat → Memory
  | 0 => m
  | n + 1 => ciaElement (ciaRow m dst src n) dst src n

/-- One element of MCC: AND with RGB_MASK (41_compositor.md R92). -/
def mccElement (m : Memory) (buf : Word) (i : Nat) : Memory :=
  writePixel m (elementAddr buf i) (readPixel m (elementAddr buf i) &&& rgbMask)

/-- The first `n` elements of MCC (41_compositor.md R92). -/
def mccRow (m : Memory) (buf : Word) : Nat → Memory
  | 0 => m
  | n + 1 => mccElement (mccRow m buf n) buf n

/-- CIA's precondition on its own two rows: disjoint, or the same row (20_memory.md R56). -/
def rowsCompatible (d s : Span) : Bool := decide (d.base = s.base) || !d.meets s

/-- CIA (41_compositor.md R91). The unchecked preconditions are the model's faults: partly overlapping rows (20_memory.md
R56), unbacked words (R48), a data race (R50). -/
def execCia (s : State) : Result :=
  if rowsCompatible (dstRow s.eng) (srcRow s.eng) then
    match accessFault s (ciaAccess s.eng) with
    | some f => .fault f
    | none => .next { s with mem := ciaRow s.mem s.eng.dst s.eng.src (unsigned s.eng.cnt) }
  else .fault .rowOverlap

/-- MCC (41_compositor.md R92), with the faults of 20_memory.md R48 and R50. -/
def execMcc (s : State) : Result :=
  match accessFault s (mccAccess s.eng) with
  | some f => .fault f
  | none => .next { s with mem := mccRow s.mem s.eng.dst (unsigned s.eng.cnt) }

end Sys2Proof.Machine
end

