-- ==== Sys2Proof/Syntax.lean ====
section
/-! DEFINITION. The commands of the DPC, one constructor per row of spec/opcode_table.json (30_encoding.md R62).
No command carries an operand: every operand is implicit in the opcode (R61). -/

namespace Sys2Proof

/-- The fourteen commands, the DPC's "instructions" (30_encoding.md R62). -/
inductive Instr where
  /-- PACK (40_pixelformat.md R82). -/
  | pack
  /-- UNPACK (R83). -/
  | unpack
  /-- PXTST (R84). -/
  | pxtst
  /-- CIA (41_compositor.md R91). -/
  | cia
  /-- MCC (R92). -/
  | mcc
  /-- PADD (42_geometry.md R102). -/
  | padd
  /-- PSUB (R103). -/
  | psub
  /-- PMUL (R104). -/
  | pmul
  /-- PDIV (R105). -/
  | pdiv
  /-- PLT (R106). -/
  | plt
  /-- RADD (R107). -/
  | radd
  /-- RSUB (R108). -/
  | rsub
  /-- RINT (R109). -/
  | rint
  /-- RTST (R110). -/
  | rtst
  deriving DecidableEq, Repr

end Sys2Proof
end

