-- ==== Sys2Proof/Decode.lean ====
section
/-! DEFINITION. The command word (30_encoding.md R60 to R64): fields, decoder, encoder. Decoding is total, looks at
one 32-bit value and nothing else, and has no state (R60, R64). -/

namespace Sys2Proof

/-- Why a word is no command (30_encoding.md R63 names the two classes). -/
inductive Reject where
  /-- "any word with RSV ≠ 0, whatever its OPC". -/
  | reservedBitsSet (rsv : BitVec 24)
  /-- "any word with RSV = 0 whose OPC is not one of" the fourteen. -/
  | unassignedOpcode (opc : BitVec 8)
  deriving DecidableEq, Repr

/-- RSV, bits 31:8 of a command word (R60). -/
def rsvField (w : Word) : BitVec 24 := w.extractLsb' 8 24

/-- OPC, bits 7:0 of a command word (R60). -/
def opcField (w : Word) : BitVec 8 := w.extractLsb' 0 8

/-- The opcode map (R62, column OPC). -/
def decodeOpcode (opc : BitVec 8) : Option Instr :=
  match opc.toNat with
  | 0x10 => some .pack
  | 0x11 => some .unpack
  | 0x12 => some .pxtst
  | 0x20 => some .cia
  | 0x21 => some .mcc
  | 0x30 => some .padd
  | 0x31 => some .psub
  | 0x32 => some .pmul
  | 0x33 => some .pdiv
  | 0x34 => some .plt
  | 0x38 => some .radd
  | 0x39 => some .rsub
  | 0x3A => some .rint
  | 0x3B => some .rtst
  | _ => none

/-- The decoder: a word with a reserved bit set, or with an unassigned opcode, is rejected by name (R63). -/
def decode (w : Word) : Except Reject Instr :=
  if rsvField w = 0 then
    match decodeOpcode (opcField w) with
    | some i => .ok i
    | none => .error (.unassignedOpcode (opcField w))
  else .error (.reservedBitsSet (rsvField w))

/-- "an illegal command word" (R63): a word that is none of the fourteen. -/
def illegalWord (w : Word) : Bool :=
  match decode w with
  | .ok _ => false
  | .error _ => true

/-- The encoder, the column "word" of R62's table. -/
def encode : Instr → Word
  | .pack => 0x00000010
  | .unpack => 0x00000011
  | .pxtst => 0x00000012
  | .cia => 0x00000020
  | .mcc => 0x00000021
  | .padd => 0x00000030
  | .psub => 0x00000031
  | .pmul => 0x00000032
  | .pdiv => 0x00000033
  | .plt => 0x00000034
  | .radd => 0x00000038
  | .rsub => 0x00000039
  | .rint => 0x0000003A
  | .rtst => 0x0000003B

/-- The word an opcode-table row names, its bits above `nbits` zero. A command word is one 32-bit value (R60), so
there is no byte order to lay it out in. -/
def tableWord (nbits w : Nat) : Word := BitVec.ofNat 32 (w % 2 ^ nbits)

/-- What the decoder reads from the command whose bits are `w`. A value that does not fit in the one 32-bit word of
R60 is no command word. -/
def decodeTableWord (nbits w : Nat) : Option Instr :=
  if w % 2 ^ nbits < 2 ^ 32 then (decode (tableWord nbits w)).toOption else none

end Sys2Proof
end

