-- ==== Sys2Proof/Machine/Geometry.lean ====
section
/-! DEFINITION. The Geometry unit: PADD, PSUB, PMUL, PDIV, PLT, RADD, RSUB, RINT, RTST (42_geometry.md). It touches
no pixel memory. -/

namespace Sys2Proof.Machine

/-- Component-wise addition over the integers (42_geometry.md R102). -/
def Point.add (p q : Point) : Point := ⟨p.x + q.x, p.y + q.y⟩

/-- Component-wise subtraction over the integers (42_geometry.md R103). -/
def Point.sub (p q : Point) : Point := ⟨p.x - q.x, p.y - q.y⟩

/-- Both components times one scalar (42_geometry.md R104). -/
def Point.scale (p : Point) (k : Int) : Point := ⟨p.x * k, p.y * k⟩

/-- Both components divided by one scalar, truncating toward zero (42_geometry.md R105). -/
def Point.divide (p : Point) (k : Int) : Point := ⟨truncDiv p.x k, truncDiv p.y k⟩

/-- A rectangle with its origin moved; "width/height unchanged" (42_geometry.md R107, R108). -/
def Rect.moveTo (r : Rect) (p : Point) : Rect := ⟨p.x, p.y, r.w, r.h⟩

/-- The canonical empty rectangle (42_geometry.md R101). -/
def Rect.canonicalEmpty : Rect := ⟨0, 0, 0, 0⟩

/-- Rectangle intersection over the integers (42_geometry.md R109). -/
def Rect.intersect (a b : Rect) : Rect :=
  let left := max a.x b.x
  let right := min (a.x + a.w) (b.x + b.w)
  let top := max a.y b.y
  let bottom := min (a.y + a.h) (b.y + b.h)
  if right - left ≤ 0 ∨ bottom - top ≤ 0 then Rect.canonicalEmpty
  else ⟨left, top, right - left, bottom - top⟩

/-- PADD (42_geometry.md R102). -/
def execPadd (s : State) : Result :=
  .next (s.withEng (setQPoint s.eng ((pointA s.eng).add (pointB s.eng))))

/-- PSUB, A minus B (42_geometry.md R103). -/
def execPsub (s : State) : Result :=
  .next (s.withEng (setQPoint s.eng ((pointA s.eng).sub (pointB s.eng))))

/-- PMUL (42_geometry.md R104). -/
def execPmul (s : State) : Result :=
  .next (s.withEng (setQPoint s.eng ((pointA s.eng).scale (scalar s.eng))))

/-- PDIV (42_geometry.md R105): DIV_ZERO, with the command word in ECMD, when SC = 0 (60_exceptions.md R122). -/
def execPdiv (s : State) : Result :=
  if scalar s.eng = 0 then .next (raiseError .divZero (encode .pdiv) s)
  else .next (s.withEng (setQPoint s.eng ((pointA s.eng).divide (scalar s.eng))))

/-- PLT (42_geometry.md R106). -/
def execPlt (s : State) : Result :=
  .next (s.withEng (setT s.eng (pointLess s.eng.aX s.eng.aY s.eng.bX s.eng.bY)))

/-- RADD (42_geometry.md R107). -/
def execRadd (s : State) : Result :=
  .next (s.withEng (setQRect s.eng ((rectA s.eng).moveTo ((pointA s.eng).add (pointB s.eng)))))

/-- RSUB (42_geometry.md R108). -/
def execRsub (s : State) : Result :=
  .next (s.withEng (setQRect s.eng ((rectA s.eng).moveTo ((pointA s.eng).sub (pointB s.eng)))))

/-- RINT (42_geometry.md R109): the intersection to Q, and T = 1 iff it is non-empty. -/
def execRint (s : State) : Result :=
  let q := (rectA s.eng).intersect (rectB s.eng)
  .next (s.withEng (setT (setQRect s.eng q) (rectTruth q)))

/-- RTST, of rectangle A only (42_geometry.md R110). -/
def execRtst (s : State) : Result := .next (s.withEng (setT s.eng (rectTruth (rectA s.eng))))

end Sys2Proof.Machine
end

