-- ==== Sys2Proof/Machine/PixelFormat.lean ====
section
/-! DEFINITION. The PixelFormat unit: PACK, UNPACK, PXTST (40_pixelformat.md). It is the three pure functions of R82,
R83 and R84 and nothing else (R86). -/

namespace Sys2Proof.Machine

/-- Channel quantization: `(c >> (8 - X_BITS)) << X_SHIFT` (40_pixelformat.md R81). -/
def quantize (c : Channel) (raw : BitVec 8) : Pixel :=
  (raw.setWidth 16 >>> (Config.chanBits - c.bits)) <<< c.shift

/-- The pack law: the four quantized channels, OR-combined (40_pixelformat.md R82). -/
def packPixel (ch : Word) : Pixel :=
  quantize Config.argb1555.alpha (rawAlpha ch) ||| quantize Config.argb1555.red (rawRed ch) |||
    quantize Config.argb1555.green (rawGreen ch) ||| quantize Config.argb1555.blue (rawBlue ch)

/-- A stored channel field, extracted by mask and shift (40_pixelformat.md R83). -/
def channelField (c : Channel) (p : Pixel) : Word := ((p &&& channelMask c) >>> c.shift).setWidth 32

/-- The four stored fields, each zero-extended into its own byte of UC (40_pixelformat.md R83, 10_state.md R16). -/
def unpackPixel (p : Pixel) : Word :=
  (channelField Config.argb1555.alpha p <<< 24) ||| (channelField Config.argb1555.red p <<< 16) |||
    (channelField Config.argb1555.green p <<< 8) ||| channelField Config.argb1555.blue p

/-- PACK (40_pixelformat.md R82): CH packed into PX. -/
def execPack (s : State) : Result := .next (s.withEng { s.eng with px := packPixel s.eng.ch })

/-- UNPACK (40_pixelformat.md R83): the fields of PX into UC. -/
def execUnpack (s : State) : Result := .next (s.withEng { s.eng with uc := unpackPixel s.eng.px })

/-- PXTST (40_pixelformat.md R84): T from PX. -/
def execPxtst (s : State) : Result := .next (s.withEng (setT s.eng (pixelTruth s.eng.px)))

end Sys2Proof.Machine
end

