-- ==== Sys2Proof/Machine/Dispatch.lean ====
section
/-! DEFINITION. One command of the engine whose window is addressed, one arm per constructor of `Instr`. It is step (3)
of 60_exceptions.md R128: the halted check (1) and the decoder (2) stand before it, in `commandWrite`. -/

namespace Sys2Proof.Machine

def exec (i : Instr) (s : State) : Host.Outcome State Fault Refusal :=
  match i with
  | .pack => Sys2Proof.Machine.execPack s
  | .unpack => Sys2Proof.Machine.execUnpack s
  | .pxtst => Sys2Proof.Machine.execPxtst s
  | .cia => Sys2Proof.Machine.execCia s
  | .mcc => Sys2Proof.Machine.execMcc s
  | .padd => Sys2Proof.Machine.execPadd s
  | .psub => Sys2Proof.Machine.execPsub s
  | .pmul => Sys2Proof.Machine.execPmul s
  | .pdiv => Sys2Proof.Machine.execPdiv s
  | .plt => Sys2Proof.Machine.execPlt s
  | .radd => Sys2Proof.Machine.execRadd s
  | .rsub => Sys2Proof.Machine.execRsub s
  | .rint => Sys2Proof.Machine.execRint s
  | .rtst => Sys2Proof.Machine.execRtst s

end Sys2Proof.Machine
end

