-- ==== Sys2Proof/Machine/Bus.lean ====
section
/-! DEFINITION. The transactions of the outside world: register reads and writes, the CMD write that starts a command,
reset, and the host's own accesses to pixel memory (10_state.md R31, 60_exceptions.md R128, 20_memory.md R50). -/

namespace Sys2Proof.Machine

/-- What one CMD write does, in the order of 60_exceptions.md R128: (1) a halted engine ignores it (R126); (2) an
illegal word raises ILLEGAL_CMD with the word in ECMD (R121); (3) the command executes. -/
def commandWrite (w : Word) (s : State) : Result :=
  if s.eng.halted then .next s
  else
    match decode w with
    | .error _ => .next (raiseError .illegalCmd w s)
    | .ok i => exec i s

/-- The pixel words a CMD write accesses (20_memory.md R46): those of CIA or MCC, and none when the write is ignored,
illegal or another command's (R41). -/
def commandAccess (w : Word) (s : State) : Access :=
  if s.eng.halted then Access.empty
  else
    match decode w with
    | .ok .cia => ciaAccess s.eng
    | .ok .mcc => mccAccess s.eng
    | _ => Access.empty

/-- A host write to a register number of the addressed window; a reserved number ignores it (10_state.md R23). -/
def registerWrite (number : Nat) (v : Word) (s : State) : Result :=
  match regOfNumber number with
  | some .cmd => commandWrite v s
  | some r => .next (s.withEng (writeReg s.eng r v))
  | none => .next s

/-- A host read of a register number of the addressed window: it returns the value and changes nothing (10_state.md
R31). -/
def registerRead (number : Nat) (s : State) : Result :=
  .next { s with responses := s.responses ++ [.reg s.index number (readNumber s.eng number)] }

/-- A CMD write that begins here and does not end yet: the whole effect, and the access set is held until it ends (log
7). -/
def commandBegin (w : Word) (s : State) : Result :=
  match commandWrite w s with
  | .next s' => .next { s' with inFlight := ⟨s.index, commandAccess w s⟩ :: s'.inFlight }
  | .fault f => .fault f
  | .refused r => .refused r

/-- The end of the CMD write that is in flight on engine `k`; from here on every later operation is ordered after it
(20_memory.md R51). -/
def commandEnd (k : Nat) (s : State) : Result :=
  if s.busy k then .next { s with inFlight := s.inFlight.filter fun f => f.engine != k }
  else .refused .nothingInFlight

/-- A transaction on the window of engine `k`: the window exists, and no CMD write of it is still in flight (10_state.md
R31, D32). -/
def onWindow (k : Nat) (s : State) (action : State → Result) : Result :=
  if s.busy k then .refused .windowBusy
  else
    match s.focus k with
    | some s' => action s'
    | none => .refused .noSuchEngine

/-- The host puts values into a row of pixel words by platform means (30_encoding.md R66, line `pm`; log 17). That the row
wraps from word 0xFFFFFFFF to word 0 is the model's choice (log 21). -/
def platformWrite (addr : Word) (values : List Pixel) (s : State) : Result :=
  match accessFault s ⟨[], [⟨addr, values.length⟩]⟩ with
  | some f => .fault f
  | none => .next { s with mem := writeRow s.mem addr values }

/-- The host reads a pixel word by platform means (20_memory.md R41; log 17). -/
def platformRead (addr : Word) (s : State) : Result :=
  match accessFault s ⟨[⟨addr, 1⟩], []⟩ with
  | some f => .fault f
  | none => .next { s with responses := s.responses ++ [.pixel addr (readPixel s.mem addr)] }

/-- One transaction of the outside world. -/
def perform (ev : Event) (s : State) : Result :=
  match ev with
  | .write k number v => onWindow k s (registerWrite number v)
  | .read k number => onWindow k s (registerRead number)
  | .reset k => onWindow k s fun s' => .next (resetEngine s')
  | .beginCmd k w => onWindow k s (commandBegin w)
  | .endCmd k => commandEnd k s
  | .pmWrite addr values => platformWrite addr values s
  | .pmRead addr => platformRead addr s

/-- The engine whose window a transaction addresses; none for the platform's own accesses to pixel memory. -/
def eventEngine : Event → Option Nat
  | .write k _ _ | .read k _ | .reset k | .beginCmd k _ | .endCmd k => some k
  | .pmWrite _ _ | .pmRead _ => none

/-- Put a CMD write of `w` at the head of the script, on the addressed engine, whose window is free for it. -/
def withCommandWord (w : Word) (s : State) : State :=
  { s with
    script := .write s.index 0x00 w :: s.script
    inFlight := s.inFlight.filter fun f => f.engine != s.index }

end Sys2Proof.Machine
end

