-- ==== Sys2Proof/Machine/Step.lean ====
section
/-! DEFINITION. One step: the next transaction of the outside world. There is no program counter and no fetch from
memory (10_state.md R25): "the 'program' is the host's script". -/

namespace Sys2Proof.Machine

/-- The next transaction of the script is performed. With none left the machine is idle and keeps all its state
(60_exceptions.md R132; log 2). -/
def step (s : State) : Host.Outcome State Fault Refusal :=
  match s.script with
  | [] => .next s
  | ev :: rest => perform ev { s with script := rest }

/-- The state whose very next step writes the command word `w` to CMD of the addressed engine (log 1). -/
def State.withFetchWord (s : State) (nbits w : Nat) : State := withCommandWord (tableWord nbits w) s

end Sys2Proof.Machine
end

