-- ==== Sys2Proof/Machine/Lanes.lean ====
section
/-! DEFINITION. The lane-wise datapath of the Compositor (41_compositor.md R93): full groups of LANES elements, then
the remainder one element at a time. It has "no architectural effect": `exec` does not use it; the statement that it
leaves the same pixels as `ciaRow` and `mccRow` is the source's dual-path equivalence. -/

namespace Sys2Proof.Machine

/-- `out[j]` of CIA: "a per-lane select between `dst` and `src`" (41_compositor.md R93). -/
def ciaLane (m : Memory) (dst src : Word) (i : Nat) : Pixel :=
  if readPixel m (elementAddr src i) &&& alphaMask = 0 then readPixel m (elementAddr dst i)
  else readPixel m (elementAddr src i)

/-- `out[j]` of MCC (41_compositor.md R93). -/
def mccLane (m : Memory) (buf : Word) (i : Nat) : Pixel := readPixel m (elementAddr buf i) &&& rgbMask

/-- One group of CIA from element `start`: every lane is computed from the memory before the group, then all lanes are
stored, the unchanged ones too (20_memory.md R46). -/
def ciaGroup (m : Memory) (dst src : Word) (start : Nat) : Memory :=
  writeRow m (elementAddr dst start) ((List.range Config.lanes).map fun j => ciaLane m dst src (start + j))

/-- One group of MCC from element `start`. -/
def mccGroup (m : Memory) (buf : Word) (start : Nat) : Memory :=
  writeRow m (elementAddr buf start) ((List.range Config.lanes).map fun j => mccLane m buf (start + j))

/-- The first `g` full groups of CIA. -/
def ciaGroups (m : Memory) (dst src : Word) : Nat → Memory
  | 0 => m
  | g + 1 => ciaGroup (ciaGroups m dst src g) dst src (Config.lanes * g)

/-- The first `g` full groups of MCC. -/
def mccGroups (m : Memory) (buf : Word) : Nat → Memory
  | 0 => m
  | g + 1 => mccGroup (mccGroups m buf g) buf (Config.lanes * g)

/-- `k` single elements of CIA from element `start`. -/
def ciaTail (m : Memory) (dst src : Word) (start : Nat) : Nat → Memory
  | 0 => m
  | k + 1 => ciaElement (ciaTail m dst src start k) dst src (start + k)

/-- `k` single elements of MCC from element `start`. -/
def mccTail (m : Memory) (buf : Word) (start : Nat) : Nat → Memory
  | 0 => m
  | k + 1 => mccElement (mccTail m buf start k) buf (start + k)

/-- A row of CIA by the lane-wise path: `floor(n / LANES)` groups, then `n mod LANES` single elements. -/
def ciaByLanes (m : Memory) (dst src : Word) (n : Nat) : Memory :=
  ciaTail (ciaGroups m dst src (n / Config.lanes)) dst src (Config.lanes * (n / Config.lanes)) (n % Config.lanes)

/-- A row of MCC by the lane-wise path. -/
def mccByLanes (m : Memory) (buf : Word) (n : Nat) : Memory :=
  mccTail (mccGroups m buf (n / Config.lanes)) buf (Config.lanes * (n / Config.lanes)) (n % Config.lanes)

end Sys2Proof.Machine
end

