-- ==== Sys2Proof/Machine/Script.lean ====
section
/-! DEFINITION. The script notation for the host's transactions (30_encoding.md R66, R67). "It is a notation, not
hardware; nothing in the DPC parses it": a line expands to the transactions of the script in State. -/

namespace Sys2Proof.Machine

/-- Operand A or operand B, as the pseudo-operations name it. -/
inductive Operand where
  | a
  | b
  deriving DecidableEq, Repr

/-- A line of a script, run against one engine (30_encoding.md R66). Numbers are decimal, possibly negative. -/
inductive Line where
  /-- `wr REG, value`. -/
  | wr (r : Reg) (value : Int)
  /-- `rd REG`. -/
  | rd (r : Reg)
  /-- `cmd MNEMONIC`. -/
  | cmd (i : Instr)
  /-- `cmdw value`. -/
  | cmdw (value : Int)
  /-- `pm addr, v0, v1, …`. -/
  | pm (addr : Word) (values : List Pixel)
  /-- `reset`. -/
  | reset
  /-- `chan a, r, g, b`. -/
  | chan (a r g b : Nat)
  /-- `point A, x, y` and `point B, x, y`. -/
  | point (o : Operand) (x y : Int)
  /-- `rect A, x, y, w, h` and `rect B, x, y, w, h`. -/
  | rect (o : Operand) (x y w h : Int)
  /-- `row d, s, n`. -/
  | row (d s n : Int)
  deriving DecidableEq, Repr

/-- A number that names a 32-bit pattern: "a negative number `-k` stands for the 32-bit pattern `2^32 - k`" (R66). DESIGN
CHOICE (log 22): R66 sets no lower bound; the model calls `-2^32` and everything below it ill formed. -/
def numberOk (v : Int) : Bool := decide (-(2 ^ 32) < v) && decide (v < 2 ^ 32)

/-- The 32-bit pattern of a number (R66). -/
def pattern (v : Int) : Word := BitVec.ofInt 32 v

/-- A well-formed line: channels 0 to 255, numbers that name a 32-bit pattern (R66; their lower bound, log 22). -/
def Line.wf : Line → Bool
  | .wr _ v | .cmdw v => numberOk v
  | .rd _ | .cmd _ | .pm _ _ | .reset => true
  | .chan a r g b => decide (a ≤ 255) && decide (r ≤ 255) && decide (g ≤ 255) && decide (b ≤ 255)
  | .point _ x y => numberOk x && numberOk y
  | .rect _ x y w h => numberOk x && numberOk y && numberOk w && numberOk h
  | .row d s n => numberOk d && numberOk s && numberOk n

/-- One register write of engine `k`, by name. -/
def writeEvent (k : Nat) (r : Reg) (v : Int) : Event := .write k (regNumber r) (pattern v)

/-- `(a << 24) | (r << 16) | (g << 8) | b`, the value the line `chan` writes to CH (R66). -/
def channelsWord (a r g b : Nat) : Word :=
  (BitVec.ofNat 32 a <<< 24) ||| (BitVec.ofNat 32 r <<< 16) ||| (BitVec.ofNat 32 g <<< 8) ||| BitVec.ofNat 32 b

/-- The transactions a line stands for, on engine `k` (the tables of R66). -/
def Line.expand (k : Nat) : Line → List Event
  | .wr r v => [writeEvent k r v]
  | .rd r => [.read k (regNumber r)]
  | .cmd i => [.write k (regNumber .cmd) (encode i)]
  | .cmdw v => [writeEvent k .cmd v]
  | .pm addr values => [.pmWrite addr values]
  | .reset => [.reset k]
  | .chan a r g b => [.write k (regNumber .ch) (channelsWord a r g b)]
  | .point .a x y => [writeEvent k .aX x, writeEvent k .aY y]
  | .point .b x y => [writeEvent k .bX x, writeEvent k .bY y]
  | .rect .a x y w h => [writeEvent k .aX x, writeEvent k .aY y, writeEvent k .aW w, writeEvent k .aH h]
  | .rect .b x y w h => [writeEvent k .bX x, writeEvent k .bY y, writeEvent k .bW w, writeEvent k .bH h]
  | .row d s n => [writeEvent k .dst d, writeEvent k .src s, writeEvent k .cnt n]

/-- The encoding of a script: its transactions in order (R66). -/
def scriptEvents (k : Nat) (ls : List Line) : List Event := ls.flatMap (Line.expand k)

/-! The source's functions as scripts (30_encoding.md R67). -/

/-- `pixelFromARGB8(a, r, g, b)`. -/
def scriptPixelFromARGB8 (a r g b : Nat) : List Line := [.chan a r g b, .cmd .pack, .rd .px]

/-- `compositeIfAlpha(dst, src, count)`. -/
def scriptCompositeIfAlpha (dst src count : Int) : List Line := [.row dst src count, .cmd .cia]

/-- `maskColorChannels(buf, count)`. -/
def scriptMaskColorChannels (buf count : Int) : List Line := [.wr .dst buf, .wr .cnt count, .cmd .mcc]

/-- `A ∩ B`, from the two rectangles' components. -/
def scriptIntersect (ax ay aw ah bx bY bw bh : Int) : List Line :=
  [.rect .a ax ay aw ah, .rect .b bx bY bw bh, .cmd .rint, .rd .qX, .rd .qY, .rd .qW, .rd .qH]

/-- The boolean conversion of a Pixel: bit 0 of the value read. -/
def scriptPixelTruth (p : Int) : List Line := [.wr .px p, .cmd .pxtst, .rd .status]

end Sys2Proof.Machine
end

