-- ==== Sys2Proof/Safety.lean ====
section
/-! DEFINITION. What holds of a machine at every moment, and what counts as a run that has not gone wrong. -/

namespace Sys2Proof.Machine

/-- The bits of UC that may be 1: 24, 20:16, 12:8, 4:0 (10_state.md R16). -/
def ucFieldBits : Word := 0x011F1F1F

/-- What the spec says of one engine's registers at every moment: the bits of UC outside its fields read 0 (10_state.md
R16); ECMD reads 0 while ERR = 0 (R13); ECMD holds an illegal word after ILLEGAL_CMD and PDIV's word after DIV_ZERO
(60_exceptions.md R120). -/
structure Engine.Inv (e : Engine) : Prop where
  ucFields : e.uc &&& ~~~ucFieldBits = 0
  ecmdWhenNoError : e.err = .noError → e.ecmd = 0
  ecmdWhenIllegal : e.err = .illegalCmd → ∀ i, encode i ≠ e.ecmd
  ecmdWhenDivZero : e.err = .divZero → e.ecmd = encode .pdiv

/-- What holds of the whole machine at every moment: pixel memory is in its canonical form, every engine meets
`Engine.Inv`, and the CMD writes in flight are on engines of the system, at most one each (10_state.md R31). -/
structure State.Inv (s : State) : Prop where
  memWf : Memory.wf s.mem
  engines : ∀ e ∈ s.engines, e.Inv
  inFlightExist : ∀ f ∈ s.inFlight, f.engine < s.engines.length
  inFlightOnce : (s.inFlight.map InFlight.engine).Nodup

/-- The registers a command reads (10_state.md R24, column "registers read"). -/
def commandReads : Instr → List Reg
  | .pack => [.ch]
  | .unpack | .pxtst => [.px]
  | .cia => [.dst, .src, .cnt]
  | .mcc => [.dst, .cnt]
  | .padd | .psub | .plt => [.aX, .aY, .bX, .bY]
  | .pmul | .pdiv => [.aX, .aY, .sc]
  | .radd | .rsub => [.aX, .aY, .aW, .aH, .bX, .bY]
  | .rint => [.aX, .aY, .aW, .aH, .bX, .bY, .bW, .bH]
  | .rtst => [.aW, .aH]

/-- The registers a command writes when it raises no error, STATUS.T apart (10_state.md R24). -/
def commandWrites : Instr → List Reg
  | .pack => [.px]
  | .unpack => [.uc]
  | .pxtst | .plt | .rtst | .cia | .mcc => []
  | .padd | .psub | .pmul | .pdiv => [.qX, .qY]
  | .radd | .rsub | .rint => [.qX, .qY, .qW, .qH]

/-- The command writes STATUS.T (10_state.md R24, R26). -/
def commandWritesT : Instr → Bool
  | .pxtst | .plt | .rint | .rtst => true
  | .pack | .unpack | .cia | .mcc | .padd | .psub | .pmul | .pdiv | .radd | .rsub => false

/-- "gone wrong": some engine has recorded an error and is halted (60_exceptions.md R127). -/
def State.goneWrong (s : State) : Bool := s.engines.any Engine.halted

/-- A step that neither faults nor is refused and leaves no engine halted. -/
def safeStep (s : State) : Prop :=
  match step s with
  | .next s' => s'.goneWrong = false
  | .fault _ => False
  | .refused _ => False

/-- The states a run of the machine passes through. -/
inductive Reaches : State → State → Prop where
  | refl (s : State) : Reaches s s
  | step {s t u : State} (run : Reaches s t) (next : Machine.step t = .next u) : Reaches s u

end Sys2Proof.Machine
end

