-- ==== Sys2Proof/WellFormed.lean ====
section
/-! DEFINITION. Well-formedness. A command has no operand (30_encoding.md R61), so every command is well formed.
What the spec does check, when the hardware is built, is the pixel format: the two invariants of 00_scope.md R3 and
the three constraints of 91_not_in_source.md N18 that U4 adds. -/

namespace Sys2Proof

/-- Every command is well formed: no constructor has a field that could be out of range (R61). -/
def Instr.wf : Instr → Bool
  | .pack | .unpack | .pxtst | .cia | .mcc | .padd | .psub | .pmul | .pdiv | .plt | .radd | .rsub | .rint | .rtst => true

namespace PixelFormat

/-- The four channels of a format. -/
def channels (f : PixelFormat) : List Channel := [f.alpha, f.red, f.green, f.blue]

/-- "the sum of the four bit-widths must not exceed the storage width" (R3). -/
def widthsFit (f : PixelFormat) : Bool :=
  decide (f.alpha.bits + f.red.bits + f.green.bits + f.blue.bits ≤ f.storageBits)

/-- "every channel must have at least 1 bit" (R3). -/
def everyChannelPresent (f : PixelFormat) : Bool := f.channels.all fun c => decide (1 ≤ c.bits)

/-- No field extends past the top of the word (N18). -/
def fieldsInsideWord (f : PixelFormat) : Bool := f.channels.all fun c => decide (c.shift + c.bits ≤ f.storageBits)

/-- No channel is wider than the raw 8-bit input, so that the right shift of the pack law is defined (N18). -/
def channelsNarrow (f : PixelFormat) : Bool := f.channels.all fun c => decide (c.bits ≤ Config.chanBits)

/-- Two fields share no bit. -/
def apart (c d : Channel) : Bool := decide (c.shift + c.bits ≤ d.shift) || decide (d.shift + d.bits ≤ c.shift)

/-- No two fields overlap (N18). -/
def fieldsDisjoint (f : PixelFormat) : Bool :=
  apart f.alpha f.red && apart f.alpha f.green && apart f.alpha f.blue &&
    apart f.red f.green && apart f.red f.blue && apart f.green f.blue

/-- A format that may be built: R3's two invariants and N18's three constraints (U4: a model that makes the format a
parameter rejects every other one). -/
def wf (f : PixelFormat) : Bool :=
  f.widthsFit && f.everyChannelPresent && f.fieldsInsideWord && f.channelsNarrow && f.fieldsDisjoint

end PixelFormat

end Sys2Proof
end

