-- ==== Sys2Proof/Certificates/Slice0/Obligations.lean ====
section
/-! DEFINITION. The statements for the provers. A row is spoken of by its elements, `elementAddr base i` for `i` below
the count (20_memory.md R42), and a command's result by the whole next state, so that every part of the state the
equation does not name is unchanged. -/

open Sys2Proof Sys2Proof.Machine

/-! ### Encoding (30_encoding.md) -/

/-- Words written out from the table of 30_encoding.md R62, and illegal ones from R63. -/
def Obligations.SampleWordsDecodeAsTheTableSays : Prop :=
  decodeTableWord 32 0x00000010 = some .pack ∧ decodeTableWord 32 0x00000021 = some .mcc ∧
    decodeTableWord 32 0x00000033 = some .pdiv ∧ decodeTableWord 32 0x0000003B = some .rtst ∧
    decodeTableWord 32 0x00000000 = none ∧ decodeTableWord 32 0x00000110 = none ∧
    decodeTableWord 32 0x00000013 = none ∧ decodeTableWord 32 0xFFFFFFFF = none

/-- 30_encoding.md R62: the fourteen words, and a word selects a command iff it is that command's word; so decoding
and encoding are inverse to each other. -/
def Obligations.WordSelectsCommandIffItIsItsTableWord : Prop :=
  (∀ i : Instr, i.wf = true ∧ (encode i, i) ∈
    [((0x10 : Word), Instr.pack), (0x11, .unpack), (0x12, .pxtst), (0x20, .cia), (0x21, .mcc), (0x30, .padd),
      (0x31, .psub), (0x32, .pmul), (0x33, .pdiv), (0x34, .plt), (0x38, .radd), (0x39, .rsub), (0x3A, .rint),
      (0x3B, .rtst)]) ∧
  ∀ (w : Word) (i : Instr), decode w = .ok i ↔ w = encode i

/-- 60_exceptions.md R121 (with 30_encoding.md R63, 60_exceptions.md R124): a word that is none of the fourteen,
written to CMD of an engine that is not halted, records ILLEGAL_CMD and the word and changes nothing else, whatever
the operand registers hold; and no command raises ILLEGAL_CMD. -/
def Obligations.IllegalWordRaisesIllegalCmd : Prop :=
  (∀ (s : State) (w : Word), s.eng.err = .noError →
    w ∉ ([0x10, 0x11, 0x12, 0x20, 0x21, 0x30, 0x31, 0x32, 0x33, 0x34, 0x38, 0x39, 0x3A, 0x3B] : List Word) →
    commandWrite w s = .next { s with eng := { s.eng with err := .illegalCmd, ecmd := w } }) ∧
  ∀ (i : Instr) (s t : State), s.eng.err ≠ .illegalCmd → exec i s = .next t → t.eng.err ≠ .illegalCmd

/-! ### The PixelFormat unit (40_pixelformat.md) -/

/-- 40_pixelformat.md R82. -/
def Obligations.PackPacksFourChannelsIntoPx : Prop :=
  decode 0x00000010 = .ok .pack ∧
  ∀ s : State, exec .pack s = .next { s with eng := { s.eng with
    px := (((s.eng.ch.extractLsb' 24 8).setWidth 16 >>> 7) <<< 15) ||| (((s.eng.ch.extractLsb' 16 8).setWidth 16 >>> 3) <<< 10) |||
      (((s.eng.ch.extractLsb' 8 8).setWidth 16 >>> 3) <<< 5) ||| ((s.eng.ch.extractLsb' 0 8).setWidth 16 >>> 3) } }

/-- 40_pixelformat.md R83. -/
def Obligations.UnpackExtractsTheFieldsOfPx : Prop :=
  decode 0x00000011 = .ok .unpack ∧
  ∀ s : State, exec .unpack s = .next { s with eng := { s.eng with
    uc := (((s.eng.px &&& 0x8000) >>> 15).setWidth 32 <<< 24) ||| (((s.eng.px &&& 0x7C00) >>> 10).setWidth 32 <<< 16) |||
      (((s.eng.px &&& 0x03E0) >>> 5).setWidth 32 <<< 8) ||| (s.eng.px &&& 0x001F).setWidth 32 } }

/-- 40_pixelformat.md R84. -/
def Obligations.PxtstSetsTIffPxIsNonZero : Prop :=
  decode 0x00000012 = .ok .pxtst ∧
  ∀ s : State, exec .pxtst s = .next { s with eng := { s.eng with t := decide (s.eng.px ≠ 0) } }

/-- 40_pixelformat.md R85: the exact quantization law. -/
def Obligations.PackThenUnpackTruncatesEachChannel : Prop :=
  ∀ s : State, ∃ t u : State, exec .pack s = .next t ∧ exec .unpack t = .next u ∧
    u.eng.uc.extractLsb' 24 1 = s.eng.ch.extractLsb' 31 1 ∧ u.eng.uc.extractLsb' 16 5 = s.eng.ch.extractLsb' 19 5 ∧
    u.eng.uc.extractLsb' 8 5 = s.eng.ch.extractLsb' 11 5 ∧ u.eng.uc.extractLsb' 0 5 = s.eng.ch.extractLsb' 3 5

/-! ### The Compositor unit (41_compositor.md) -/

/-- 41_compositor.md R91, under the preconditions the rule names: every address backed (20_memory.md R48), the rows the
same or without a common address (R56), no conflict with a command in flight (R50). Every word of pixel memory is
given: the destination row's by the rule, every other one unchanged; no register changes. -/
def Obligations.CiaCompositesTheDestinationRow : Prop :=
  decode 0x00000020 = .ok .cia ∧
  ∀ s : State,
    (∀ i < s.eng.cnt.toNat, wordBacked s.backed (elementAddr s.eng.dst i) = true ∧
      wordBacked s.backed (elementAddr s.eng.src i) = true) →
    (s.eng.dst = s.eng.src ∨ ∀ i j, i < s.eng.cnt.toNat → j < s.eng.cnt.toNat →
      elementAddr s.eng.dst i ≠ elementAddr s.eng.src j) →
    (∀ f ∈ s.inFlight, ∀ i < s.eng.cnt.toNat,
      f.access.readsWord (elementAddr s.eng.dst i) = false ∧ f.access.writesWord (elementAddr s.eng.dst i) = false ∧
      f.access.writesWord (elementAddr s.eng.src i) = false) →
    ∃ m : Memory, exec .cia s = .next { s with mem := m } ∧
      (∀ i < s.eng.cnt.toNat, readPixel m (elementAddr s.eng.dst i) =
        if readPixel s.mem (elementAddr s.eng.src i) &&& 0x8000 ≠ 0 then readPixel s.mem (elementAddr s.eng.src i)
        else readPixel s.mem (elementAddr s.eng.dst i)) ∧
      ∀ a : Word, (∀ i < s.eng.cnt.toNat, a ≠ elementAddr s.eng.dst i) → readPixel m a = readPixel s.mem a

/-- 41_compositor.md R92, under the preconditions the rule names. -/
def Obligations.MccMasksTheRow : Prop :=
  decode 0x00000021 = .ok .mcc ∧
  ∀ s : State,
    (∀ i < s.eng.cnt.toNat, wordBacked s.backed (elementAddr s.eng.dst i) = true) →
    (∀ f ∈ s.inFlight, ∀ i < s.eng.cnt.toNat,
      f.access.readsWord (elementAddr s.eng.dst i) = false ∧ f.access.writesWord (elementAddr s.eng.dst i) = false) →
    ∃ m : Memory, exec .mcc s = .next { s with mem := m } ∧
      (∀ i < s.eng.cnt.toNat, readPixel m (elementAddr s.eng.dst i) =
        readPixel s.mem (elementAddr s.eng.dst i) &&& 0x7FFF) ∧
      ∀ a : Word, (∀ i < s.eng.cnt.toNat, a ≠ elementAddr s.eng.dst i) → readPixel m a = readPixel s.mem a

/-- 41_compositor.md R91, corner case: "issuing CIA twice gives the same pixel memory as issuing it once". -/
def Obligations.CiaTwiceIsCiaOnce : Prop :=
  ∀ s t : State, exec .cia s = .next t →
    ∃ u : State, exec .cia t = .next u ∧ u.eng = t.eng ∧ ∀ a : Word, readPixel u.mem a = readPixel t.mem a

/-- 41_compositor.md R94: MCC is idempotent, and leaves an already masked row as it is. -/
def Obligations.MccIsIdempotent : Prop :=
  (∀ s t : State, exec .mcc s = .next t →
    ∃ u : State, exec .mcc t = .next u ∧ ∀ a : Word, readPixel u.mem a = readPixel t.mem a) ∧
  ∀ s t : State, exec .mcc s = .next t →
    (∀ i < s.eng.cnt.toNat, readPixel s.mem (elementAddr s.eng.dst i) &&& 0x8000 = 0) →
    ∀ a : Word, readPixel t.mem a = readPixel s.mem a

/-- 41_compositor.md R92, corner case: a row that MCC has masked, used as CIA's source, changes nothing. -/
def Obligations.MaskedRowAsSourceChangesNothing : Prop :=
  ∀ (s t u : State) (dst : Word), exec .mcc s = .next t →
    exec .cia { t with eng := { t.eng with src := t.eng.dst, dst := dst } } = .next u →
    ∀ a : Word, readPixel u.mem a = readPixel t.mem a

/-- 41_compositor.md R93, CIA: the lane groups of the datapath leave every word of pixel memory as the per-element rule
does, for every count and for the rows 20_memory.md R56 allows. -/
def Obligations.CiaLaneGroupsMatchTheElementRule : Prop :=
  ∀ (m : Memory) (dst src : Word) (n : Nat), n < 2 ^ 32 →
    (dst = src ∨ ∀ i j, i < n → j < n → elementAddr dst i ≠ elementAddr src j) →
    ∀ a : Word, readPixel (ciaByLanes m dst src n) a = readPixel (ciaRow m dst src n) a

/-- 41_compositor.md R93, MCC: "Same dual-path (vectorized + scalar remainder) equivalence requirement". -/
def Obligations.MccLaneGroupsMatchTheElementRule : Prop :=
  ∀ (m : Memory) (buf : Word) (n : Nat), n < 2 ^ 32 →
    ∀ a : Word, readPixel (mccByLanes m buf n) a = readPixel (mccRow m buf n) a

/-- 20_memory.md R48, U2: a row command with an unbacked word in its access set is a fault of the model. That MCC's is
`unbackedAccess` also where a command in flight conflicts, and that CIA's may be another, is the model's choice (log 14). -/
def Obligations.RowCommandFaultsOnAnUnbackedWord : Prop :=
  (∀ (s : State) (i : Nat), i < s.eng.cnt.toNat → wordBacked s.backed (elementAddr s.eng.dst i) = false →
    exec .mcc s = .fault .unbackedAccess) ∧
  ∀ (s : State) (i : Nat), i < s.eng.cnt.toNat →
    (wordBacked s.backed (elementAddr s.eng.dst i) = false ∨ wordBacked s.backed (elementAddr s.eng.src i) = false) →
    ∃ f : Fault, exec .cia s = .fault f

/-- 20_memory.md R56, U5: rows that overlap and are not the same row are a fault of the model. That it is `rowOverlap` also
where a word is unbacked or a command in flight conflicts is the model's choice (log 14). -/
def Obligations.CiaFaultsOnPartlyOverlappingRows : Prop :=
  ∀ (s : State) (i j : Nat), s.eng.dst ≠ s.eng.src → i < s.eng.cnt.toNat → j < s.eng.cnt.toNat →
    elementAddr s.eng.dst i = elementAddr s.eng.src j → exec .cia s = .fault .rowOverlap

/-- 20_memory.md R50, U3: a row command that writes a word another command in flight accesses, or reads a word it
writes, is a fault of the model. -/
def Obligations.RowCommandFaultsOnADataRace : Prop :=
  ∀ (s : State) (g : InFlight) (i : Nat), g ∈ s.inFlight → i < s.eng.cnt.toNat →
    ((g.access.readsWord (elementAddr s.eng.dst i) = true ∨ g.access.writesWord (elementAddr s.eng.dst i) = true →
      (∃ f : Fault, exec .mcc s = .fault f) ∧ ∃ f : Fault, exec .cia s = .fault f) ∧
    (g.access.writesWord (elementAddr s.eng.src i) = true → ∃ f : Fault, exec .cia s = .fault f))

/-! ### The Geometry unit (42_geometry.md) -/

/-- 42_geometry.md R102. -/
def Obligations.PaddAddsComponentWise : Prop :=
  decode 0x00000030 = .ok .padd ∧
  ∀ s : State, exec .padd s = .next { s with eng := { s.eng with
    qX := BitVec.ofInt 32 (s.eng.aX.toInt + s.eng.bX.toInt), qY := BitVec.ofInt 32 (s.eng.aY.toInt + s.eng.bY.toInt) } }

/-- 42_geometry.md R103. -/
def Obligations.PsubSubtractsBFromA : Prop :=
  decode 0x00000031 = .ok .psub ∧
  ∀ s : State, exec .psub s = .next { s with eng := { s.eng with
    qX := BitVec.ofInt 32 (s.eng.aX.toInt - s.eng.bX.toInt), qY := BitVec.ofInt 32 (s.eng.aY.toInt - s.eng.bY.toInt) } }

/-- 42_geometry.md R104. -/
def Obligations.PmulScalesByTheScalar : Prop :=
  decode 0x00000032 = .ok .pmul ∧
  ∀ s : State, exec .pmul s = .next { s with eng := { s.eng with
    qX := BitVec.ofInt 32 (s.eng.aX.toInt * s.eng.sc.toInt), qY := BitVec.ofInt 32 (s.eng.aY.toInt * s.eng.sc.toInt) } }

/-- 42_geometry.md R105, with Lean's own division that rounds toward zero: DIV_ZERO when SC = 0, whatever A holds;
otherwise the two truncated quotients. -/
def Obligations.PdivDividesTruncatingOrRaisesDivZero : Prop :=
  decode 0x00000033 = .ok .pdiv ∧
  (∀ s : State, s.eng.sc = 0 → exec .pdiv s =
    .next { s with eng := { s.eng with err := .divZero, ecmd := 0x00000033 } }) ∧
  ∀ s : State, s.eng.sc ≠ 0 → exec .pdiv s = .next { s with eng := { s.eng with
    qX := BitVec.ofInt 32 (s.eng.aX.toInt.tdiv s.eng.sc.toInt), qY := BitVec.ofInt 32 (s.eng.aY.toInt.tdiv s.eng.sc.toInt) } }

/-- 42_geometry.md R106: T from the signed 64-bit keys, equivalently x signed first, then y by its unsigned pattern. -/
def Obligations.PltComparesThePackedKeys : Prop :=
  decode 0x00000034 = .ok .plt ∧
  ∀ s : State,
    exec .plt s = .next { s with eng := { s.eng with
      t := decide ((s.eng.aX ++ s.eng.aY : BitVec 64).toInt < (s.eng.bX ++ s.eng.bY : BitVec 64).toInt) } } ∧
    ((s.eng.aX ++ s.eng.aY : BitVec 64).toInt < (s.eng.bX ++ s.eng.bY : BitVec 64).toInt ↔
      s.eng.aX.toInt < s.eng.bX.toInt ∨ (s.eng.aX.toInt = s.eng.bX.toInt ∧ s.eng.aY.toNat < s.eng.bY.toNat))

/-- 42_geometry.md R106: "this ordering is a strict total order usable as a map key". -/
def Obligations.PointOrderIsAStrictTotalOrder : Prop :=
  (∀ x y : Word, pointLess x y x y = false) ∧
  (∀ x y x' y' x'' y'' : Word, pointLess x y x' y' = true → pointLess x' y' x'' y'' = true →
    pointLess x y x'' y'' = true) ∧
  ∀ x y x' y' : Word, pointLess x y x' y' = true ∨ (x = x' ∧ y = y') ∨ pointLess x' y' x y = true

/-- 42_geometry.md R107. -/
def Obligations.RaddMovesTheOriginByPlusB : Prop :=
  decode 0x00000038 = .ok .radd ∧
  ∀ s : State, exec .radd s = .next { s with eng := { s.eng with
    qX := BitVec.ofInt 32 (s.eng.aX.toInt + s.eng.bX.toInt), qY := BitVec.ofInt 32 (s.eng.aY.toInt + s.eng.bY.toInt)
    qW := s.eng.aW, qH := s.eng.aH } }

/-- 42_geometry.md R108. -/
def Obligations.RsubMovesTheOriginByMinusB : Prop :=
  decode 0x00000039 = .ok .rsub ∧
  ∀ s : State, exec .rsub s = .next { s with eng := { s.eng with
    qX := BitVec.ofInt 32 (s.eng.aX.toInt - s.eng.bX.toInt), qY := BitVec.ofInt 32 (s.eng.aY.toInt - s.eng.bY.toInt)
    qW := s.eng.aW, qH := s.eng.aH } }

/-- 42_geometry.md R108, corner case, which the spec marks as its own inference from R111: RSUB after RADD with the same
B, Q copied back to A, restores the rectangle, also across a wrap. -/
def Obligations.RsubUndoesRadd : Prop :=
  ∀ s t : State, exec .radd s = .next t →
    ∃ u : State, exec .rsub { t with eng := { t.eng with
        aX := t.eng.qX, aY := t.eng.qY, aW := t.eng.qW, aH := t.eng.qH } } = .next u ∧
      u.eng.qX = s.eng.aX ∧ u.eng.qY = s.eng.aY ∧ u.eng.qW = s.eng.aW ∧ u.eng.qH = s.eng.aH

/-- 42_geometry.md R109: the intersection over the integers. In the non-empty case the registers hold the exact
integers, so that no reduction is applied. -/
def Obligations.RintComputesTheIntersectionExactly : Prop :=
  decode 0x0000003A = .ok .rint ∧
  ∀ s : State,
    let left := max s.eng.aX.toInt s.eng.bX.toInt
    let right := min (s.eng.aX.toInt + s.eng.aW.toInt) (s.eng.bX.toInt + s.eng.bW.toInt)
    let top := max s.eng.aY.toInt s.eng.bY.toInt
    let bottom := min (s.eng.aY.toInt + s.eng.aH.toInt) (s.eng.bY.toInt + s.eng.bH.toInt)
    (right - left ≤ 0 ∨ bottom - top ≤ 0 →
      exec .rint s = .next { s with eng := { s.eng with qX := 0, qY := 0, qW := 0, qH := 0, t := false } }) ∧
    (0 < right - left ∧ 0 < bottom - top →
      ∃ x y w h : Word,
        exec .rint s = .next { s with eng := { s.eng with qX := x, qY := y, qW := w, qH := h, t := true } } ∧
        x.toInt = left ∧ y.toInt = top ∧ w.toInt = right - left ∧ h.toInt = bottom - top)

/-- 42_geometry.md R113 (a): exchanging A and B gives bit-identical Q and T. -/
def Obligations.RintIsCommutative : Prop :=
  ∀ s : State, ∃ t u : State, exec .rint s = .next t ∧
    exec .rint { s with eng := { s.eng with
      aX := s.eng.bX, aY := s.eng.bY, aW := s.eng.bW, aH := s.eng.bH
      bX := s.eng.aX, bY := s.eng.aY, bW := s.eng.aW, bH := s.eng.aH } } = .next u ∧
    u.eng.qX = t.eng.qX ∧ u.eng.qY = t.eng.qY ∧ u.eng.qW = t.eng.qW ∧ u.eng.qH = t.eng.qH ∧ u.eng.t = t.eng.t

/-- 42_geometry.md R113 (b) and (c), with 90_conflicts.md C1: `A ∩ A = A` for a non-empty A; an empty operand gives
the canonical empty rectangle. -/
def Obligations.RintIsIdempotentAndAbsorbing : Prop :=
  (∀ s : State, 0 < s.eng.aW.toInt → 0 < s.eng.aH.toInt →
    s.eng.bX = s.eng.aX → s.eng.bY = s.eng.aY → s.eng.bW = s.eng.aW → s.eng.bH = s.eng.aH →
    exec .rint s = .next { s with eng := { s.eng with
      qX := s.eng.aX, qY := s.eng.aY, qW := s.eng.aW, qH := s.eng.aH, t := true } }) ∧
  ∀ s : State, s.eng.aW.toInt ≤ 0 ∨ s.eng.aH.toInt ≤ 0 ∨ s.eng.bW.toInt ≤ 0 ∨ s.eng.bH.toInt ≤ 0 →
    exec .rint s = .next { s with eng := { s.eng with qX := 0, qY := 0, qW := 0, qH := 0, t := false } }

/-- 42_geometry.md R113 (d) and (f): the safety invariant of the clip result, which makes QW a count no greater than
its signed reading. -/
def Obligations.RintNeverReturnsNegativeExtents : Prop :=
  ∀ s : State, ∃ t : State, exec .rint s = .next t ∧ 0 ≤ t.eng.qW.toInt ∧ 0 ≤ t.eng.qH.toInt ∧
    (t.eng.qW = 0 ↔ t.eng.t = false) ∧ (t.eng.qH = 0 ↔ t.eng.t = false) ∧
    (t.eng.qW.toNat : Int) = t.eng.qW.toInt ∧ (t.eng.qH.toNat : Int) = t.eng.qH.toInt

/-- 42_geometry.md R113 (e), with R101's points: when T = 1 the points of Q are exactly those of both A and B, and Q is
no wider or higher than either. -/
def Obligations.RintCoversExactlyTheCommonPoints : Prop :=
  ∀ s t : State, exec .rint s = .next t → t.eng.t = true →
    (∀ px py : Int,
      (t.eng.qX.toInt ≤ px ∧ px < t.eng.qX.toInt + t.eng.qW.toInt ∧
        t.eng.qY.toInt ≤ py ∧ py < t.eng.qY.toInt + t.eng.qH.toInt) ↔
      (s.eng.aX.toInt ≤ px ∧ px < s.eng.aX.toInt + s.eng.aW.toInt ∧
        s.eng.aY.toInt ≤ py ∧ py < s.eng.aY.toInt + s.eng.aH.toInt) ∧
      (s.eng.bX.toInt ≤ px ∧ px < s.eng.bX.toInt + s.eng.bW.toInt ∧
        s.eng.bY.toInt ≤ py ∧ py < s.eng.bY.toInt + s.eng.bH.toInt)) ∧
    t.eng.qW.toInt ≤ s.eng.aW.toInt ∧ t.eng.qW.toInt ≤ s.eng.bW.toInt ∧
    t.eng.qH.toInt ≤ s.eng.aH.toInt ∧ t.eng.qH.toInt ≤ s.eng.bH.toInt

/-- 42_geometry.md R110. -/
def Obligations.RtstSetsTIffAIsNonEmpty : Prop :=
  decode 0x0000003B = .ok .rtst ∧
  ∀ s : State, exec .rtst s = .next { s with eng := { s.eng with
    t := decide (0 < s.eng.aW.toInt) && decide (0 < s.eng.aH.toInt) } }

/-! ### All commands -/

/-- 70_reset_and_hazards.md R153 and 60_exceptions.md R123: every command ends; none is refused; only a row command can
meet a contract violation, and every other one ends in a next state. -/
def Obligations.EveryCommandEnds : Prop :=
  (∀ (i : Instr) (s : State) (r : Refusal), exec i s ≠ .refused r) ∧
  ∀ (i : Instr) (s : State), i ≠ .cia → i ≠ .mcc → ∃ t : State, exec i s = .next t

/-- 60_exceptions.md R123 (and R122: "by PDIV, and only by PDIV"): no completed command but PDIV with SC = 0 changes
STATUS.ERR or ECMD. -/
def Obligations.OnlyPdivByZeroRecordsAnError : Prop :=
  ∀ (i : Instr) (s t : State), exec i s = .next t → ¬(i = .pdiv ∧ s.eng.sc = 0) →
    t.eng.err = s.eng.err ∧ t.eng.ecmd = s.eng.ecmd

/-- 10_state.md R24, the frame of every command: a register outside its write set keeps its value, T is written by four
commands only, and of the rest of the state only pixel memory can change, by a row command, inside its destination
row. (STATUS is read through T and ERR; ERR and ECMD are `OnlyPdivByZeroRecordsAnError`'s.) -/
def Obligations.CommandWritesOnlyItsWriteSet : Prop :=
  ∀ (i : Instr) (s t : State), exec i s = .next t →
    (∀ r : Reg, r ≠ .status → r ≠ .ecmd → r ∉ commandWrites i → readReg t.eng r = readReg s.eng r) ∧
    (commandWritesT i = false → t.eng.t = s.eng.t) ∧
    t = { s with eng := t.eng, mem := t.mem } ∧
    (i ≠ .cia → i ≠ .mcc → t.mem = s.mem) ∧
    ∀ a : Word, (∀ j < s.eng.cnt.toNat, a ≠ elementAddr s.eng.dst j) → readPixel t.mem a = readPixel s.mem a

/-- 10_state.md R24, column "registers read": what a command writes to registers depends on the registers it reads and
on nothing else in the state (PDIV where it writes a result). -/
def Obligations.ResultsDependOnTheReadSetOnly : Prop :=
  ∀ (i : Instr) (s s' t t' : State), i ≠ .cia → i ≠ .mcc → (i = .pdiv → s.eng.sc ≠ 0) →
    (∀ r ∈ commandReads i, readReg s.eng r = readReg s'.eng r) →
    exec i s = .next t → exec i s' = .next t' →
    (∀ r ∈ commandWrites i, readReg t.eng r = readReg t'.eng r) ∧ (commandWritesT i = true → t.eng.t = t'.eng.t)

/-- 00_scope.md R1, 10_state.md R24: "the Compositor unit never reads a geometry register": what a row command does is
decided by DST, SRC (CIA), CNT, the pixels and the backing of its own rows, and the commands in flight (logs 4, 7). The
first clause leaves only the other registers free; the second leaves free every word outside the rows too, and fewer
commands may be in flight. -/
def Obligations.RowCommandsDependOnTheirRowsOnly : Prop :=
  (∀ (i : Instr) (s s' t : State), i = .cia ∨ i = .mcc → (∀ r ∈ commandReads i, readReg s.eng r = readReg s'.eng r) →
    s'.mem = s.mem → s'.backed = s.backed → s'.inFlight = s.inFlight → exec i s = .next t →
    ∃ t' : State, exec i s' = .next t' ∧ t'.mem = t.mem) ∧
  ∀ (i : Instr) (s s' t : State), i = .cia ∨ i = .mcc → (∀ r ∈ commandReads i, readReg s.eng r = readReg s'.eng r) →
    (∀ f ∈ s'.inFlight, f ∈ s.inFlight) →
    (∀ j < s.eng.cnt.toNat,
      wordBacked s'.backed (elementAddr s.eng.dst j) = wordBacked s.backed (elementAddr s.eng.dst j) ∧
      readPixel s'.mem (elementAddr s.eng.dst j) = readPixel s.mem (elementAddr s.eng.dst j)) →
    (i = .cia → ∀ j < s.eng.cnt.toNat,
      wordBacked s'.backed (elementAddr s.eng.src j) = wordBacked s.backed (elementAddr s.eng.src j) ∧
      readPixel s'.mem (elementAddr s.eng.src j) = readPixel s.mem (elementAddr s.eng.src j)) →
    exec i s = .next t →
    ∃ t' : State, exec i s' = .next t' ∧ ∀ j < s.eng.cnt.toNat,
      readPixel t'.mem (elementAddr s.eng.dst j) = readPixel t.mem (elementAddr s.eng.dst j)

/-! ### Errors and the halted state (60_exceptions.md) -/

/-- 60_exceptions.md R126: a CMD write to a halted engine does nothing at all, legal word or not; the other registers
are written and read as ever. -/
def Obligations.HaltedEngineIgnoresCommandWrites : Prop :=
  ∀ s : State, s.eng.err ≠ .noError →
    (∀ w : Word, commandWrite w s = .next s) ∧
    (∀ (r : Reg) (v : Word), r ≠ .cmd →
      registerWrite (regNumber r) v s = .next { s with eng := writeReg s.eng r v }) ∧
    ∀ n : Nat, registerRead n s = .next { s with responses := s.responses ++ [.reg s.index n (readNumber s.eng n)] }

/-- 60_exceptions.md R127, with R126: whatever transaction comes next, a halted engine stays halted with its first
error's code and word, its T and its results, unless the transaction is its reset. -/
def Obligations.OnlyResetLeavesTheHaltedState : Prop :=
  ∀ (s t : State) (k : Nat) (e : Engine), step s = .next t → s.engines[k]? = some e → e.err ≠ .noError →
    (∃ rest, s.script = .reset k :: rest) ∨
    ∃ e' : Engine, t.engines[k]? = some e' ∧ e'.err = e.err ∧ e'.ecmd = e.ecmd ∧ e'.t = e.t ∧ e'.uc = e.uc ∧
      e'.qX = e.qX ∧ e'.qY = e.qY ∧ e'.qW = e.qW ∧ e'.qH = e.qH

/-- 10_state.md R26: T of an engine changes by a CMD write of PXTST, PLT, RINT or RTST to that engine, by its reset, and
by nothing else. -/
def Obligations.TruthFlagChangesByFourCommandsOnly : Prop :=
  ∀ (s t : State) (k : Nat) (e : Engine), step s = .next t → s.engines[k]? = some e →
    (∃ rest, s.script = .reset k :: rest) ∨
    (∃ rest w, w ∈ ([0x12, 0x34, 0x3A, 0x3B] : List Word) ∧
      (s.script = .write k 0x00 w :: rest ∨ s.script = .beginCmd k w :: rest)) ∨
    ∃ e' : Engine, t.engines[k]? = some e' ∧ e'.t = e.t

/-! ### The register window (10_state.md) -/

/-- 10_state.md R12: the fields of STATUS, that a host write to it is ignored, what halted means, and the reset value. -/
def Obligations.StatusHoldsTAndErr : Prop :=
  ∀ (e : Engine) (v : Word),
    (readReg e .status).extractLsb' 0 1 = BitVec.ofBool e.t ∧ (readReg e .status).extractLsb' 1 3 = 0 ∧
    (readReg e .status).extractLsb' 4 4 =
      (match e.err with | .noError => 0 | .illegalCmd => 1 | .divZero => 2) ∧
    (readReg e .status).extractLsb' 8 24 = 0 ∧ writeReg e .status v = e ∧
    (e.halted = true ↔ (readReg e .status).extractLsb' 4 4 ≠ 0) ∧
    readReg Engine.atReset .status = 0

/-- 10_state.md R14 to R22: a host write of a register other than CMD: a read-write register then reads the value, PX
its low 16 bits, a read-only register what it read before; every other register of the window, every other engine and
pixel memory are unchanged. -/
def Obligations.RegisterWriteReadsBack : Prop :=
  ∀ (s s₁ : State) (k : Nat) (r : Reg) (v : Word), s.busy k = false → s.focus k = some s₁ → r ≠ .cmd →
    ∃ t : State, perform (.write k (regNumber r) v) s = .next t ∧ t = { s₁ with eng := t.eng } ∧
      readReg t.eng r =
        (if r ∈ [Reg.ecmd, .status, .uc, .qX, .qY, .qW, .qH] then readReg s₁.eng r
        else if r = .px then v &&& 0x0000FFFF else v) ∧
      ∀ r' : Reg, r' ≠ r → readReg t.eng r' = readReg s₁.eng r'

/-- 10_state.md R31: a host read returns the register's value and changes nothing (that the value is kept in a list is
the model's choice, log 11); CMD reads 0 (R11). -/
def Obligations.RegisterReadChangesNothing : Prop :=
  ∀ (s s₁ : State) (k n : Nat), s.busy k = false → s.focus k = some s₁ →
    perform (.read k n) s = .next { s₁ with responses := s.responses ++ [.reg k n (readNumber s₁.eng n)] } ∧
    s₁.engines = s.engines ∧ readNumber s₁.eng 0x00 = 0

/-- 10_state.md R23: a reserved register number reads 0 and ignores writes; neither changes any state (that the value
read is kept in a list is the model's choice, log 11). -/
def Obligations.ReservedNumbersReadZeroAndIgnoreWrites : Prop :=
  ∀ (s : State) (n : Nat) (v : Word), 0x16 ≤ n → registerWrite n v s = .next s ∧
    registerRead n s = .next { s with responses := s.responses ++ [.reg s.index n 0] }

/-! ### Reset (70_reset_and_hazards.md) -/

/-- 10_state.md R30: after power-up and reset every register reads 0x00000000 and no error is recorded. -/
def Obligations.AfterResetEveryRegisterReadsZero : Prop :=
  ∀ n : Nat, readNumber State.reset.eng n = 0 ∧ State.reset.eng.halted = false

/-- 70_reset_and_hazards.md R140, R142: a reset of engine `k` zeroes every register of that engine, leaves the halted
state, and does nothing else: no other engine and no pixel word changes. -/
def Obligations.ResetZeroesOneEngineOnly : Prop :=
  ∀ (s s₁ : State) (k : Nat), s.busy k = false → s.focus k = some s₁ →
    ∃ t : State, perform (.reset k) s = .next t ∧ (∀ n, readNumber t.eng n = 0) ∧ t.eng.halted = false ∧
      t.mem = s.mem ∧ ∀ j, j ≠ k → t.engines[j]? = s.engines[j]?

/-- 70_reset_and_hazards.md R143: commands on the reset state are defined. -/
def Obligations.CommandsOnTheResetStateAreDefined : Prop :=
  exec .cia State.reset = .next State.reset ∧ exec .mcc State.reset = .next State.reset ∧
    exec .pack State.reset = .next State.reset ∧ exec .rint State.reset = .next State.reset ∧
    exec .pmul State.reset = .next State.reset ∧
    exec .pdiv State.reset =
      .next { State.reset with eng := { State.reset.eng with err := .divZero, ecmd := 0x00000033 } }

/-! ### Steps -/

/-- The next transaction is a write of a command's word to CMD of a window that is free and whose engine is not halted:
the step is that command at the engine addressed, the transaction taken off the script (10_state.md R11, R25). -/
def Obligations.StepRunsTheDecodedCommand : Prop :=
  ∀ (s s₁ : State) (rest : List Event) (k : Nat) (w : Word) (i : Instr),
    s.script = .write k 0x00 w :: rest → s.busy k = false → s.focus k = some s₁ → s₁.eng.err = .noError →
    decode w = .ok i → i.wf = true → step s = exec i { s₁ with script := rest }

/-- What `State.withFetchWord` puts before a machine whose addressed engine is not halted is run by the very next step
(log 1). -/
def Obligations.PlacedCommandWordRunsNext : Prop :=
  ∀ (s : State) (nbits w : Nat) (i : Instr), s.eng.err = .noError → decodeTableWord nbits w = some i →
    step (s.withFetchWord nbits w) =
      exec i { s with inFlight := s.inFlight.filter fun f => f.engine != s.before.length }

/-- 60_exceptions.md R132: with no transaction to come the machine keeps all its state (log 2). -/
def Obligations.IdleMachineKeepsItsState : Prop :=
  ∀ s : State, s.script = [] → step s = .next s

/-- What holds of the machine at every moment (`State.Inv`) is kept by every step: pixel memory in its canonical form,
UC's unused bits 0 (10_state.md R16), ECMD as the error code says (R13, 60_exceptions.md R120), at most one CMD write
in flight on an engine, which exists. -/
def Obligations.StepKeepsTheInvariant : Prop :=
  ∀ s t : State, s.Inv → step s = .next t → t.Inv

/-- The invariant holds after reset. -/
def Obligations.ResetMeetsTheInvariant : Prop := State.reset.Inv

/-- 20_memory.md R41: in a step, pixel memory changes by a CMD write of CIA or MCC and by the platform's own write, and
by nothing else. -/
def Obligations.PixelMemoryChangesByRowCommandsOnly : Prop :=
  ∀ s t : State, step s = .next t →
    t.mem = s.mem ∨ (∃ addr vs rest, s.script = .pmWrite addr vs :: rest) ∨
    ∃ k w rest, w ∈ ([0x20, 0x21] : List Word) ∧
      (s.script = .write k 0x00 w :: rest ∨ s.script = .beginCmd k w :: rest)

/-- 60_exceptions.md R131: a transaction of one engine changes no register of another, a platform access changes no
register at all, and the system keeps its engines and its backing. -/
def Obligations.EnginesShareNothingButPixelMemory : Prop :=
  ∀ (s t : State) (ev : Event) (rest : List Event), s.script = ev :: rest → step s = .next t →
    (∀ k, eventEngine ev ≠ some k → t.engines[k]? = s.engines[k]?) ∧
    t.engines.length = s.engines.length ∧ t.backed = s.backed

/-! ### Several engines (20_memory.md R50, R51) -/

/-- 20_memory.md R50: "Operations that do not conflict commute". Two CMD writes on two engines, run one after the
other, can be run in the other order too, and leave the same registers and the same pixels. -/
def Obligations.NonConflictingCommandsCommute : Prop :=
  ∀ (s sj sk a ab : State) (j k : Nat) (wj wk : Word), j ≠ k → s.focus j = some sj → s.focus k = some sk →
    (commandAccess wj sj).conflicts (commandAccess wk sk) = false →
    perform (.write j 0x00 wj) s = .next a → perform (.write k 0x00 wk) a = .next ab →
    ∃ b ba : State, perform (.write k 0x00 wk) s = .next b ∧ perform (.write j 0x00 wj) b = .next ba ∧
      ba.engines = ab.engines ∧ ∀ x : Word, readPixel ba.mem x = readPixel ab.mem x

/-- 20_memory.md R50, U3: while a CMD write of engine `j` is in flight, a conflicting CMD write on another engine is a
fault of the model (that a CMD write is split into its begin and its end is the model's choice, log 7). -/
def Obligations.OverlappingConflictingCommandsFault : Prop :=
  ∀ (s sj sk a : State) (j k : Nat) (wj wk : Word), j ≠ k → s.busy k = false →
    s.focus j = some sj → s.focus k = some sk →
    (commandAccess wj sj).conflicts (commandAccess wk sk) = true → perform (.beginCmd j wj) s = .next a →
    (∃ f : Fault, perform (.write k 0x00 wk) a = .fault f) ∧ ∃ f : Fault, perform (.beginCmd k wk) a = .fault f

/-- The model's choice (log 7, log 9), from 10_state.md R31 and D32: from the begin of a CMD write to its end its
window takes no other transaction, reset included, and then the end frees it. -/
def Obligations.WindowIsBusyUntilTheCommandWriteEnds : Prop :=
  ∀ (s t : State) (k : Nat) (w : Word), perform (.beginCmd k w) s = .next t →
    (∀ ev : Event, eventEngine ev = some k → ev ≠ .endCmd k → perform ev t = .refused .windowBusy) ∧
    ∃ u : State, perform (.endCmd k) t = .next u ∧ u.busy k = false ∧ u.engines = t.engines ∧ u.mem = t.mem

/-! ### The platform and the script (20_memory.md R41, R43; 30_encoding.md R66) -/

/-- 30_encoding.md R66, line `pm`: values put into pixel words `addr`, `addr + 1`, … are read there, and every other
word is unchanged (that an unbacked or racing platform access faults, and that the row wraps at 2^32, are the model's
choices, logs 17 and 21). -/
def Obligations.PlatformWriteIsReadBack : Prop :=
  ∀ (s : State) (addr : Word) (vs : List Pixel), vs.length ≤ 2 ^ 32 → s.inFlight = [] →
    (∀ i < vs.length, wordBacked s.backed (elementAddr addr i) = true) →
    ∃ m : Memory, perform (.pmWrite addr vs) s = .next { s with mem := m } ∧
      (∀ i (h : i < vs.length), readPixel m (elementAddr addr i) = vs[i]) ∧
      ∀ a : Word, (∀ i < vs.length, a ≠ elementAddr addr i) → readPixel m a = readPixel s.mem a

/-- 20_memory.md R43: with `little` byte `2*addr` is bits 7:0 of the pixel word and byte `2*addr + 1` bits 15:8; with
`big` the two are exchanged; `little` is the default (00_scope.md R5). -/
def Obligations.ByteViewFollowsThePixelByteOrder : Prop :=
  ∀ (m : Memory) (addr : Word) (even odd : BitVec 33), even.toNat = 2 * addr.toNat → odd.toNat = 2 * addr.toNat + 1 →
    readByte m even .little = (readPixel m addr).extractLsb' 0 8 ∧
    readByte m odd .little = (readPixel m addr).extractLsb' 8 8 ∧
    readByte m even .big = (readPixel m addr).extractLsb' 8 8 ∧
    readByte m odd .big = (readPixel m addr).extractLsb' 0 8 ∧
    readByte m even = (readPixel m addr).extractLsb' 0 8 ∧
    readByte m odd = (readPixel m addr).extractLsb' 8 8

/-- 30_encoding.md R66, line `chan`, with 10_state.md R14: four channels of 0 to 255 become one write to CH (0x03) whose
four bytes they are. -/
def Obligations.ChanLineWritesTheFourChannels : Prop :=
  ∀ (k a r g b : Nat), (Line.chan a r g b).wf = true →
    ∃ w : Word, (Line.chan a r g b).expand k = [.write k 0x03 w] ∧ (w.extractLsb' 24 8).toNat = a ∧
      (w.extractLsb' 16 8).toNat = r ∧ (w.extractLsb' 8 8).toNat = g ∧ (w.extractLsb' 0 8).toNat = b
end

