-- ==== Sys2Proof/Laws/Access.lean ====
section
/-! SUPPORT. Rows, access sets and backing, said address by address (20_memory.md R42, R46 to R50, R56). -/

namespace Sys2Proof.Machine

theorem elementAddr_inj (base : Word) {i j : Nat} (hi : i < 2 ^ 32) (hj : j < 2 ^ 32)
    (h : elementAddr base i = elementAddr base j) : i = j := by
  have h' : BitVec.ofNat 32 i = BitVec.ofNat 32 j := (BitVec.add_right_inj base).1 h
  have := congrArg BitVec.toNat h'
  rwa [BitVec.toNat_ofNat, BitVec.toNat_ofNat, Nat.mod_eq_of_lt hi, Nat.mod_eq_of_lt hj] at this

theorem elementAddr_of_toNat (base a : Word) : elementAddr base (a - base).toNat = a := by
  rw [elementAddr, BitVec.ofNat_toNat, BitVec.setWidth_eq]
  bv_omega

theorem covers_elementAddr (sp : Span) {i : Nat} (hi : i < sp.len) : sp.covers (elementAddr sp.base i) = true := by
  have h : elementAddr sp.base i - sp.base = BitVec.ofNat 32 i := by
    simp only [elementAddr]
    bv_omega
  simp only [Span.covers, h, BitVec.toNat_ofNat, decide_eq_true_eq]
  exact lt_of_le_of_lt (Nat.mod_le _ _) hi

/-- The addresses of a row are those of its elements (20_memory.md R42). -/
theorem covers_iff (sp : Span) (a : Word) : sp.covers a = true ↔ ∃ i < sp.len, a = elementAddr sp.base i := by
  constructor
  · intro h
    exact ⟨(a - sp.base).toNat, by simpa [Span.covers] using h, (elementAddr_of_toNat _ _).symm⟩
  · rintro ⟨i, hi, rfl⟩
    exact covers_elementAddr sp hi

theorem covers_base (sp : Span) : sp.covers sp.base = decide (0 < sp.len) := by simp [Span.covers]

theorem toNat_sub_of_le {u v : Word} (h : v.toNat ≤ u.toNat) : (u - v).toNat = u.toNat - v.toNat := by
  bv_omega

/-- Two rows meet iff they have an address in common. -/
theorem meets_iff (p q : Span) : p.meets q = true ↔ ∃ a, p.covers a = true ∧ q.covers a = true := by
  simp only [Span.meets, Bool.and_eq_true, Bool.or_eq_true, decide_eq_true_eq]
  constructor
  · rintro ⟨⟨hp, hq⟩, h | h⟩
    · exact ⟨q.base, h, by simpa [covers_base] using hq⟩
    · exact ⟨p.base, by simpa [covers_base] using hp, h⟩
  · rintro ⟨a, ha, hb⟩
    simp only [Span.covers, decide_eq_true_eq] at ha hb ⊢
    refine ⟨⟨by omega, by omega⟩, ?_⟩
    rcases Nat.le_total (a - q.base).toNat (a - p.base).toNat with h | h
    · left
      have e : q.base - p.base = (a - p.base) - (a - q.base) := by bv_omega
      rw [e, toNat_sub_of_le h]; omega
    · right
      have e : p.base - q.base = (a - q.base) - (a - p.base) := by bv_omega
      rw [e, toNat_sub_of_le h]; omega

theorem spansMeet_iff (ps qs : List Span) :
    spansMeet ps qs = true ↔
      ∃ a, (ps.any fun sp => sp.covers a) = true ∧ (qs.any fun sp => sp.covers a) = true := by
  simp only [spansMeet, List.any_eq_true, meets_iff]
  constructor
  · rintro ⟨p, hp, q, hq, a, ha, hb⟩
    exact ⟨a, ⟨p, hp, ha⟩, q, hq, hb⟩
  · rintro ⟨a, ⟨p, hp, ha⟩, q, hq, hb⟩
    exact ⟨p, hp, q, hq, a, ha, hb⟩

theorem rowBacked_iff (regions : List Region) (base : Word) (n : Nat) :
    rowBacked regions base n = true ↔ ∀ i < n, wordBacked regions (elementAddr base i) = true := by
  induction n with
  | zero => simp [rowBacked]
  | succ n ih =>
    simp only [rowBacked, Bool.and_eq_true, ih]
    constructor
    · rintro ⟨h, hs⟩ i hi
      rcases Nat.lt_succ_iff_lt_or_eq.1 hi with hlt | rfl
      · exact hs i hlt
      · exact h
    · intro h
      exact ⟨h n (Nat.lt_succ_self n), fun i hi => h i (Nat.lt_succ_of_lt hi)⟩

theorem accessBacked_iff (regions : List Region) (acc : Access) :
    accessBacked regions acc = true ↔
      ∀ a, acc.readsWord a = true ∨ acc.writesWord a = true → wordBacked regions a = true := by
  simp only [accessBacked, List.all_eq_true, List.mem_append, Access.readsWord, Access.writesWord, List.any_eq_true,
    rowBacked_iff]
  constructor
  · rintro h a (⟨sp, hsp, hc⟩ | ⟨sp, hsp, hc⟩)
    · obtain ⟨i, hi, rfl⟩ := (covers_iff sp a).1 hc
      exact h sp (Or.inl hsp) i hi
    · obtain ⟨i, hi, rfl⟩ := (covers_iff sp a).1 hc
      exact h sp (Or.inr hsp) i hi
  · rintro h sp (hsp | hsp) i hi
    · exact h _ (Or.inl ⟨sp, hsp, covers_elementAddr sp hi⟩)
    · exact h _ (Or.inr ⟨sp, hsp, covers_elementAddr sp hi⟩)

theorem rowsCompatible_iff (d s : Span) :
    rowsCompatible d s = true ↔ d.base = s.base ∨ ∀ a, ¬(d.covers a = true ∧ s.covers a = true) := by
  simp only [rowsCompatible, Bool.or_eq_true, decide_eq_true_eq, Bool.not_eq_true', ← Bool.not_eq_true, meets_iff,
    not_exists]

/-- Two access sets conflict at a word that is in both and that at least one of them writes (20_memory.md R50). -/
theorem conflicts_iff (x y : Access) :
    x.conflicts y = true ↔
      ∃ a, (x.writesWord a = true ∧ (y.readsWord a = true ∨ y.writesWord a = true)) ∨
        (x.readsWord a = true ∧ y.writesWord a = true) := by
  simp only [Access.conflicts, Bool.or_eq_true, spansMeet_iff, Access.writesWord, Access.readsWord]
  constructor
  · rintro ((⟨a, h, h'⟩ | ⟨a, h, h'⟩) | ⟨a, h, h'⟩)
    · exact ⟨a, .inl ⟨h, .inr h'⟩⟩
    · exact ⟨a, .inl ⟨h, .inl h'⟩⟩
    · exact ⟨a, .inr ⟨h, h'⟩⟩
  · rintro ⟨a, ⟨h, h' | h'⟩ | ⟨h, h'⟩⟩
    · exact .inl (.inr ⟨a, h, h'⟩)
    · exact .inl (.inl ⟨a, h, h'⟩)
    · exact .inr ⟨a, h, h'⟩

theorem conflicts_comm (x y : Access) : x.conflicts y = y.conflicts x := by
  rw [Bool.eq_iff_iff, conflicts_iff, conflicts_iff]
  exact exists_congr fun a => by tauto

theorem conflicts_empty_left (y : Access) : Access.empty.conflicts y = false := by
  simp [Access.conflicts, Access.empty, spansMeet]

/-! ### The two row commands -/

theorem dstRow_covers (e : Engine) (a : Word) :
    (dstRow e).covers a = true ↔ ∃ i < e.cnt.toNat, a = elementAddr e.dst i := covers_iff _ a

theorem srcRow_covers (e : Engine) (a : Word) :
    (srcRow e).covers a = true ↔ ∃ i < e.cnt.toNat, a = elementAddr e.src i := covers_iff _ a

theorem ciaAccess_writesWord (e : Engine) (a : Word) :
    (ciaAccess e).writesWord a = true ↔ ∃ i < e.cnt.toNat, a = elementAddr e.dst i := by
  simp [Access.writesWord, ciaAccess, dstRow_covers]

theorem ciaAccess_readsWord (e : Engine) (a : Word) :
    (ciaAccess e).readsWord a = true ↔
      (∃ i < e.cnt.toNat, a = elementAddr e.src i) ∨ ∃ i < e.cnt.toNat, a = elementAddr e.dst i := by
  simp [Access.readsWord, ciaAccess, dstRow_covers, srcRow_covers]

theorem mccAccess_writesWord (e : Engine) (a : Word) :
    (mccAccess e).writesWord a = true ↔ ∃ i < e.cnt.toNat, a = elementAddr e.dst i := by
  simp [Access.writesWord, mccAccess, dstRow_covers]

theorem mccAccess_readsWord (e : Engine) (a : Word) :
    (mccAccess e).readsWord a = true ↔ ∃ i < e.cnt.toNat, a = elementAddr e.dst i := by
  simp [Access.readsWord, mccAccess, dstRow_covers]

/-- CIA's rows are the same row, or no element of one is at the address of an element of the other. -/
theorem ciaRows_compatible_iff (e : Engine) :
    rowsCompatible (dstRow e) (srcRow e) = true ↔
      e.dst = e.src ∨ ∀ i j, i < e.cnt.toNat → j < e.cnt.toNat → elementAddr e.dst i ≠ elementAddr e.src j := by
  simp only [rowsCompatible_iff, dstRow_covers, srcRow_covers]
  refine or_congr Iff.rfl ⟨fun h i j hi hj he => h _ ⟨⟨i, hi, rfl⟩, j, hj, he⟩, ?_⟩
  rintro h a ⟨⟨i, hi, rfl⟩, j, hj, he⟩
  exact h i j hi hj he

/-- What `accessFault` says, in the order it says it. -/
theorem accessFault_none_iff (s : State) (acc : Access) :
    accessFault s acc = none ↔ accessBacked s.backed acc = true ∧ racesInFlight s acc = false := by
  unfold accessFault
  split <;> simp_all

/-- An access is defined iff every word of it is backed and no command in flight conflicts with it, word by word. -/
theorem accessFault_none_words (s : State) (acc : Access) :
    accessFault s acc = none ↔
      (∀ a, acc.readsWord a = true ∨ acc.writesWord a = true → wordBacked s.backed a = true) ∧
      ∀ f ∈ s.inFlight, ∀ a,
        (acc.writesWord a = true → f.access.readsWord a = false ∧ f.access.writesWord a = false) ∧
        (acc.readsWord a = true → f.access.writesWord a = false) := by
  rw [accessFault_none_iff, accessBacked_iff, racesInFlight, List.any_eq_false]
  refine and_congr Iff.rfl (forall_congr' fun f => imp_congr_right fun _ => ?_)
  rw [conflicts_iff, not_exists]
  refine forall_congr' fun a => ?_
  cases acc.writesWord a <;> cases acc.readsWord a <;> cases f.access.writesWord a <;> cases f.access.readsWord a <;>
    simp

theorem accessFault_some (s : State) (acc : Access) (f : Fault) (h : accessFault s acc = some f) :
    (f = .unbackedAccess ∧ accessBacked s.backed acc = false) ∨ (f = .dataRace ∧ racesInFlight s acc = true) := by
  unfold accessFault at h
  split at h
  · split at h
    · right; simp_all
    · simp at h
  · left; simp_all

end Sys2Proof.Machine
end

