-- ==== Sys2Proof/Laws/Arith.lean ====
section
/-! SUPPORT. The integer primitives in Lean's own terms. -/

namespace Sys2Proof.Machine

/-- `truncDiv`, written from 42_geometry.md R112, is Lean's division that rounds toward zero. -/
theorem truncDiv_eq_tdiv (a b : Int) : truncDiv a b = a.tdiv b := by
  obtain ⟨n, rfl | rfl⟩ := Int.eq_nat_or_neg a <;> obtain ⟨m, rfl | rfl⟩ := Int.eq_nat_or_neg b <;>
    rcases n with _ | n <;> rcases m with _ | m <;>
    simp [truncDiv, Int.neg_tdiv, Int.tdiv_neg, Int.sign_neg, -Int.natCast_add, -Nat.cast_add,
      Int.sign_natCast_of_ne_zero]

theorem toInt_eq_zero_iff (w : Word) : w.toInt = 0 ↔ w = 0 := by
  rw [← BitVec.toInt_inj]
  simp

/-- Wrapping a register's signed value gives the register back. -/
@[simp] theorem wrap32_signed (w : Word) : wrap32 (signed w) = w := by simp [wrap32, signed]

/-- An integer in the signed 32-bit range is stored exactly (42_geometry.md R111). -/
theorem toInt_wrap32 {z : Int} (h : -2 ^ 31 ≤ z) (h' : z < 2 ^ 31) : (wrap32 z).toInt = z := by
  rw [wrap32, BitVec.toInt_ofInt]
  apply Int.bmod_eq_of_le <;> omega

end Sys2Proof.Machine
end

