-- ==== Sys2Proof/Laws/Memory.lean ====
section
/-! SUPPORT. Pixel memory: a read after a write, and every operation keeps the canonical form. -/

namespace Sys2Proof.Machine

theorem lookup_store (m : Memory) (a b : Nat) (v : Pixel) :
    Memory.lookup (Memory.store m a v) b = if b = a then some v else Memory.lookup m b := by
  induction m with
  | nil => simp [Memory.store, Memory.lookup]
  | cons x rest ih =>
    obtain ⟨c, p⟩ := x
    unfold Memory.store
    by_cases hlt : a < c
    · rw [if_pos hlt]; simp only [Memory.lookup]
    · rw [if_neg hlt]
      by_cases heq : a = c
      · subst heq; rw [if_pos rfl]; simp only [Memory.lookup]; split <;> rfl
      · rw [if_neg heq]; simp only [Memory.lookup, ih]
        by_cases hba : b = a
        · subst hba; simp [heq]
        · simp [hba]

/-- A read of the word just written gives the value written; every other word reads as before (20_memory.md R45). -/
theorem readPixel_writePixel (m : Memory) (a b : Word) (v : Pixel) :
    readPixel (writePixel m a v) b = if b = a then v else readPixel m b := by
  simp only [readPixel, writePixel, lookup_store, BitVec.toNat_inj]
  split <;> simp

@[simp] theorem readPixel_writePixel_same (m : Memory) (a : Word) (v : Pixel) :
    readPixel (writePixel m a v) a = v := by simp [readPixel_writePixel]

theorem readPixel_writePixel_other (m : Memory) {a b : Word} (v : Pixel) (h : b ≠ a) :
    readPixel (writePixel m a v) b = readPixel m b := by simp [readPixel_writePixel, h]

theorem mem_keys_store (m : Memory) (a x : Nat) (v : Pixel) :
    x ∈ (Memory.store m a v).map Prod.fst ↔ x = a ∨ x ∈ m.map Prod.fst := by
  induction m with
  | nil => simp [Memory.store]
  | cons y rest ih =>
    obtain ⟨c, p⟩ := y
    unfold Memory.store
    split_ifs with hlt heq
    · simp
    · subst heq; simp
    · rw [List.map_cons, List.mem_cons, ih, List.map_cons, List.mem_cons]
      tauto

theorem keys_store_sorted (m : Memory) (a : Nat) (v : Pixel)
    (h : List.Pairwise (fun x y => x < y) (m.map Prod.fst)) :
    List.Pairwise (fun x y => x < y) ((Memory.store m a v).map Prod.fst) := by
  induction m with
  | nil => simp [Memory.store]
  | cons y rest ih =>
    obtain ⟨c, p⟩ := y
    rw [List.map_cons, List.pairwise_cons] at h
    unfold Memory.store
    split_ifs with hlt heq
    · simp only [List.map_cons, List.pairwise_cons, List.mem_cons]
      exact ⟨by rintro x (rfl | hx); exacts [hlt, hlt.trans (h.1 x hx)], h.1, h.2⟩
    · subst heq; simpa [List.pairwise_cons] using h
    · rw [List.map_cons, List.pairwise_cons]
      refine ⟨fun x hx => ?_, ih h.2⟩
      rcases (mem_keys_store rest a x v).1 hx with rfl | hx
      · exact lt_of_le_of_ne (Nat.le_of_not_lt hlt) (Ne.symm heq)
      · exact h.1 x hx

theorem writePixel_wf (m : Memory) (a : Word) (v : Pixel) (h : Memory.wf m) : Memory.wf (writePixel m a v) := by
  refine ⟨keys_store_sorted m _ v h.1, fun x hx => ?_⟩
  rcases (mem_keys_store m _ x v).1 hx with rfl | hx
  · exact a.isLt
  · exact h.2 x hx

theorem writeRow_wf (vs : List Pixel) (m : Memory) (a : Word) (h : Memory.wf m) : Memory.wf (writeRow m a vs) := by
  induction vs generalizing m a with
  | nil => exact h
  | cons v vs ih => exact ih _ _ (writePixel_wf m a v h)

theorem ciaElement_wf (m : Memory) (dst src : Word) (i : Nat) (h : Memory.wf m) :
    Memory.wf (ciaElement m dst src i) := by
  unfold ciaElement
  split
  · exact writePixel_wf _ _ _ h
  · exact h

theorem ciaRow_wf (m : Memory) (dst src : Word) (n : Nat) (h : Memory.wf m) : Memory.wf (ciaRow m dst src n) := by
  induction n with
  | zero => exact h
  | succ n ih => exact ciaElement_wf _ _ _ _ ih

theorem mccRow_wf (m : Memory) (buf : Word) (n : Nat) (h : Memory.wf m) : Memory.wf (mccRow m buf n) := by
  induction n with
  | zero => exact h
  | succ n ih => exact writePixel_wf _ _ _ ih

/-- Two well-formed memories that list the same word at every address are the same list: the form is canonical. -/
theorem memory_ext (m m' : Memory) (h : Memory.wf m) (h' : Memory.wf m')
    (same : ∀ a, Memory.lookup m a = Memory.lookup m' a) : m = m' := by
  have none_of_lt : ∀ (l : Memory) (a : Nat), (∀ x ∈ l.map Prod.fst, a < x) → Memory.lookup l a = none := by
    intro l a hl
    induction l with
    | nil => rfl
    | cons y rest ih =>
      obtain ⟨c, p⟩ := y
      have hc : a < c := hl c (by simp)
      simp only [Memory.lookup, if_neg (Nat.ne_of_lt hc)]
      exact ih fun x hx => hl x (by simp [List.mem_cons] at hx ⊢; exact Or.inr hx)
  have sorted := h.1
  have sorted' := h'.1
  clear h h'
  induction m generalizing m' with
  | nil =>
    cases m' with
    | nil => rfl
    | cons y rest => obtain ⟨c, p⟩ := y; have := same c; simp [Memory.lookup] at this
  | cons y rest ih =>
    obtain ⟨c, p⟩ := y
    cases m' with
    | nil => have := same c; simp [Memory.lookup] at this
    | cons z rest' =>
      obtain ⟨d, q⟩ := z
      rw [List.map_cons, List.pairwise_cons] at sorted sorted'
      have hcd : c = d := by
        rcases Nat.lt_trichotomy c d with hlt | heq | hgt
        · have := same c
          rw [none_of_lt ((d, q) :: rest') c (by
            simp only [List.map_cons, List.mem_cons]
            rintro x (rfl | hx); exacts [hlt, hlt.trans (sorted'.1 x hx)])] at this
          simp [Memory.lookup] at this
        · exact heq
        · have := same d
          rw [none_of_lt ((c, p) :: rest) d (by
            simp only [List.map_cons, List.mem_cons]
            rintro x (rfl | hx); exacts [hgt, hgt.trans (sorted.1 x hx)])] at this
          simp [Memory.lookup] at this
      subst hcd
      have hpq : p = q := by have := same c; simpa [Memory.lookup] using this
      subst hpq
      congr 1
      refine ih rest' (fun a => ?_) sorted.2 sorted'.2
      by_cases hac : a = c
      · subst hac; rw [none_of_lt rest _ sorted.1, none_of_lt rest' _ sorted'.1]
      · have := same a; simpa [Memory.lookup, hac] using this

end Sys2Proof.Machine
end

