-- ==== Sys2Proof/Laws/Rows.lean ====
section
/-! SUPPORT. What a row of CIA and a row of MCC leave in pixel memory, word by word (41_compositor.md R91, R92). -/

namespace Sys2Proof.Machine

theorem alphaMask_eq : alphaMask = 0x8000 := by decide

theorem rgbMask_eq : rgbMask = 0x7FFF := by decide

/-- CIA writes no word outside the destination row. -/
theorem readPixel_ciaRow_outside (m : Memory) (dst src a : Word) (n : Nat) (h : ∀ i < n, a ≠ elementAddr dst i) :
    readPixel (ciaRow m dst src n) a = readPixel m a := by
  induction n with
  | zero => rfl
  | succ n ih =>
    have hn := ih fun i hi => h i (Nat.lt_succ_of_lt hi)
    simp only [ciaRow, ciaElement]
    split
    · rw [readPixel_writePixel_other _ _ (h n (Nat.lt_succ_self n)), hn]
    · exact hn

/-- The final value of element `i` of CIA's destination row, when the rows are the same row or have no address in
common (20_memory.md R56). -/
theorem readPixel_ciaRow (m : Memory) (dst src : Word) (n i : Nat) (hn : n ≤ 2 ^ 32) (hi : i < n)
    (rows : dst = src ∨ ∀ j k, j < n → k < n → elementAddr dst j ≠ elementAddr src k) :
    readPixel (ciaRow m dst src n) (elementAddr dst i) =
      if alphaTest (readPixel m (elementAddr src i)) then readPixel m (elementAddr src i)
      else readPixel m (elementAddr dst i) := by
  induction n with
  | zero => exact absurd hi (Nat.not_lt_zero i)
  | succ n ih =>
    have srcKept : readPixel (ciaRow m dst src n) (elementAddr src n) = readPixel m (elementAddr src n) := by
      refine readPixel_ciaRow_outside _ _ _ _ _ fun j hj heq => ?_
      rcases rows with rfl | apart
      · exact absurd (elementAddr_inj _ (by omega) (by omega) heq) (by omega)
      · exact apart j n (by omega) (by omega) heq.symm
    simp only [ciaRow, ciaElement, srcKept]
    rcases Nat.lt_succ_iff_lt_or_eq.1 hi with hlt | rfl
    · have hne : elementAddr dst i ≠ elementAddr dst n := fun heq =>
        absurd (elementAddr_inj _ (by omega) (by omega) heq) (by omega)
      have ihi := ih (by omega) hlt (rows.imp_right fun apart j k hj hk => apart j k (by omega) (by omega))
      split
      · rw [readPixel_writePixel_other _ _ hne, ihi]
      · exact ihi
    · have dstKept : readPixel (ciaRow m dst src i) (elementAddr dst i) = readPixel m (elementAddr dst i) :=
        readPixel_ciaRow_outside _ _ _ _ _ fun j hj heq =>
          absurd (elementAddr_inj _ (by omega) (by omega) heq) (by omega)
      split
      · rw [readPixel_writePixel_same]
      · exact dstKept

/-- MCC writes no word outside its row. -/
theorem readPixel_mccRow_outside (m : Memory) (buf a : Word) (n : Nat) (h : ∀ i < n, a ≠ elementAddr buf i) :
    readPixel (mccRow m buf n) a = readPixel m a := by
  induction n with
  | zero => rfl
  | succ n ih =>
    simp only [mccRow, mccElement]
    rw [readPixel_writePixel_other _ _ (h n (Nat.lt_succ_self n)), ih fun i hi => h i (Nat.lt_succ_of_lt hi)]

/-- The final value of element `i` of MCC's row. -/
theorem readPixel_mccRow (m : Memory) (buf : Word) (n i : Nat) (hn : n ≤ 2 ^ 32) (hi : i < n) :
    readPixel (mccRow m buf n) (elementAddr buf i) = readPixel m (elementAddr buf i) &&& rgbMask := by
  induction n with
  | zero => exact absurd hi (Nat.not_lt_zero i)
  | succ n ih =>
    simp only [mccRow, mccElement]
    rcases Nat.lt_succ_iff_lt_or_eq.1 hi with hlt | rfl
    · have hne : elementAddr buf i ≠ elementAddr buf n := fun heq =>
        absurd (elementAddr_inj _ (by omega) (by omega) heq) (by omega)
      rw [readPixel_writePixel_other _ _ hne, ih (by omega) hlt]
    · rw [readPixel_writePixel_same, readPixel_mccRow_outside _ _ _ _ fun j hj heq =>
        absurd (elementAddr_inj _ (by omega) (by omega) heq) (by omega)]

theorem elementAddr_add (base : Word) (i j : Nat) : elementAddr (elementAddr base i) j = elementAddr base (i + j) := by
  simp only [elementAddr, BitVec.add_assoc, BitVec.ofNat_add]

theorem elementAddr_succ_base (base : Word) (i : Nat) : elementAddr (base + 1) i = elementAddr base (i + 1) := by
  rw [Nat.add_comm, ← elementAddr_add]
  rfl

/-- Every word a row of values is not put into is unchanged. -/
theorem readPixel_writeRow_outside (vs : List Pixel) (m : Memory) (base a : Word)
    (h : ∀ i < vs.length, a ≠ elementAddr base i) : readPixel (writeRow m base vs) a = readPixel m a := by
  induction vs generalizing m base with
  | nil => rfl
  | cons v vs ih =>
    rw [writeRow, ih _ _ fun i hi => by rw [elementAddr_succ_base]; exact h (i + 1) (by simpa using hi)]
    exact readPixel_writePixel_other _ _ (by simpa [elementAddr] using h 0 (by simp))

/-- A row of values is read back, value by value. -/
theorem readPixel_writeRow (vs : List Pixel) (m : Memory) (base : Word) (i : Nat) (hn : vs.length ≤ 2 ^ 32)
    (hi : i < vs.length) : readPixel (writeRow m base vs) (elementAddr base i) = vs[i] := by
  induction vs generalizing m base i with
  | nil => exact absurd hi (Nat.not_lt_zero i)
  | cons v vs ih =>
    simp only [List.length_cons] at hn hi
    cases i with
    | zero =>
      have h0 : elementAddr base 0 = base := by simp [elementAddr]
      rw [writeRow, readPixel_writeRow_outside _ _ _ _ fun j hj heq => ?_, h0, readPixel_writePixel_same]
      · rfl
      · rw [elementAddr_succ_base] at heq
        exact absurd (elementAddr_inj _ (by omega) (by omega) heq) (by omega)
    | succ i =>
      rw [writeRow, ← elementAddr_succ_base, ih _ _ _ (by omega) (by omega)]
      rfl

end Sys2Proof.Machine
end

