-- ==== Sys2Proof/Laws/State.lean ====
section
/-! SUPPORT. One lemma per field per update of the state, true by rfl, so that no later proof unfolds a record
update. -/

namespace Sys2Proof.Machine

variable (s : State) (e : Engine) (code : ErrCode) (w : Word) (b : Bool) (p : Point) (r : Rect)

/-! ### `State.withEng`: the registers of the addressed engine, nothing else -/

@[simp] theorem withEng_before : (s.withEng e).before = s.before := rfl
@[simp] theorem withEng_eng : (s.withEng e).eng = e := rfl
@[simp] theorem withEng_after : (s.withEng e).after = s.after := rfl
@[simp] theorem withEng_mem : (s.withEng e).mem = s.mem := rfl
@[simp] theorem withEng_backed : (s.withEng e).backed = s.backed := rfl
@[simp] theorem withEng_inFlight : (s.withEng e).inFlight = s.inFlight := rfl
@[simp] theorem withEng_script : (s.withEng e).script = s.script := rfl
@[simp] theorem withEng_responses : (s.withEng e).responses = s.responses := rfl
@[simp] theorem withEng_withEng (e₁ e₂ : Engine) : (s.withEng e₁).withEng e₂ = s.withEng e₂ := rfl
@[simp] theorem withEng_self : s.withEng s.eng = s := rfl
@[simp] theorem withEng_index : (s.withEng e).index = s.index := rfl
@[simp] theorem withEng_busy (k : Nat) : (s.withEng e).busy k = s.busy k := rfl

/-! ### `raiseError`: STATUS.ERR and ECMD (60_exceptions.md R124) -/

@[simp] theorem raiseError_before : (raiseError code w s).before = s.before := rfl
@[simp] theorem raiseError_after : (raiseError code w s).after = s.after := rfl
@[simp] theorem raiseError_mem : (raiseError code w s).mem = s.mem := rfl
@[simp] theorem raiseError_backed : (raiseError code w s).backed = s.backed := rfl
@[simp] theorem raiseError_inFlight : (raiseError code w s).inFlight = s.inFlight := rfl
@[simp] theorem raiseError_script : (raiseError code w s).script = s.script := rfl
@[simp] theorem raiseError_responses : (raiseError code w s).responses = s.responses := rfl
@[simp] theorem raiseError_eng_t : (raiseError code w s).eng.t = s.eng.t := rfl
@[simp] theorem raiseError_eng_err : (raiseError code w s).eng.err = code := rfl
@[simp] theorem raiseError_eng_ecmd : (raiseError code w s).eng.ecmd = w := rfl
@[simp] theorem raiseError_eng_ch : (raiseError code w s).eng.ch = s.eng.ch := rfl
@[simp] theorem raiseError_eng_px : (raiseError code w s).eng.px = s.eng.px := rfl
@[simp] theorem raiseError_eng_uc : (raiseError code w s).eng.uc = s.eng.uc := rfl
@[simp] theorem raiseError_eng_dst : (raiseError code w s).eng.dst = s.eng.dst := rfl
@[simp] theorem raiseError_eng_src : (raiseError code w s).eng.src = s.eng.src := rfl
@[simp] theorem raiseError_eng_cnt : (raiseError code w s).eng.cnt = s.eng.cnt := rfl
@[simp] theorem raiseError_eng_sc : (raiseError code w s).eng.sc = s.eng.sc := rfl
@[simp] theorem raiseError_eng_aX : (raiseError code w s).eng.aX = s.eng.aX := rfl
@[simp] theorem raiseError_eng_aY : (raiseError code w s).eng.aY = s.eng.aY := rfl
@[simp] theorem raiseError_eng_aW : (raiseError code w s).eng.aW = s.eng.aW := rfl
@[simp] theorem raiseError_eng_aH : (raiseError code w s).eng.aH = s.eng.aH := rfl
@[simp] theorem raiseError_eng_bX : (raiseError code w s).eng.bX = s.eng.bX := rfl
@[simp] theorem raiseError_eng_bY : (raiseError code w s).eng.bY = s.eng.bY := rfl
@[simp] theorem raiseError_eng_bW : (raiseError code w s).eng.bW = s.eng.bW := rfl
@[simp] theorem raiseError_eng_bH : (raiseError code w s).eng.bH = s.eng.bH := rfl
@[simp] theorem raiseError_eng_qX : (raiseError code w s).eng.qX = s.eng.qX := rfl
@[simp] theorem raiseError_eng_qY : (raiseError code w s).eng.qY = s.eng.qY := rfl
@[simp] theorem raiseError_eng_qW : (raiseError code w s).eng.qW = s.eng.qW := rfl
@[simp] theorem raiseError_eng_qH : (raiseError code w s).eng.qH = s.eng.qH := rfl

/-! ### `resetEngine`: every register (10_state.md R30) -/

@[simp] theorem resetEngine_before : (resetEngine s).before = s.before := rfl
@[simp] theorem resetEngine_eng : (resetEngine s).eng = Engine.atReset := rfl
@[simp] theorem resetEngine_after : (resetEngine s).after = s.after := rfl
@[simp] theorem resetEngine_mem : (resetEngine s).mem = s.mem := rfl
@[simp] theorem resetEngine_backed : (resetEngine s).backed = s.backed := rfl
@[simp] theorem resetEngine_inFlight : (resetEngine s).inFlight = s.inFlight := rfl
@[simp] theorem resetEngine_script : (resetEngine s).script = s.script := rfl
@[simp] theorem resetEngine_responses : (resetEngine s).responses = s.responses := rfl

/-! ### `setT`: STATUS.T (10_state.md R26) -/

@[simp] theorem setT_t : (setT e b).t = b := rfl
@[simp] theorem setT_err : (setT e b).err = e.err := rfl
@[simp] theorem setT_ecmd : (setT e b).ecmd = e.ecmd := rfl
@[simp] theorem setT_ch : (setT e b).ch = e.ch := rfl
@[simp] theorem setT_px : (setT e b).px = e.px := rfl
@[simp] theorem setT_uc : (setT e b).uc = e.uc := rfl
@[simp] theorem setT_dst : (setT e b).dst = e.dst := rfl
@[simp] theorem setT_src : (setT e b).src = e.src := rfl
@[simp] theorem setT_cnt : (setT e b).cnt = e.cnt := rfl
@[simp] theorem setT_sc : (setT e b).sc = e.sc := rfl
@[simp] theorem setT_aX : (setT e b).aX = e.aX := rfl
@[simp] theorem setT_aY : (setT e b).aY = e.aY := rfl
@[simp] theorem setT_aW : (setT e b).aW = e.aW := rfl
@[simp] theorem setT_aH : (setT e b).aH = e.aH := rfl
@[simp] theorem setT_bX : (setT e b).bX = e.bX := rfl
@[simp] theorem setT_bY : (setT e b).bY = e.bY := rfl
@[simp] theorem setT_bW : (setT e b).bW = e.bW := rfl
@[simp] theorem setT_bH : (setT e b).bH = e.bH := rfl
@[simp] theorem setT_qX : (setT e b).qX = e.qX := rfl
@[simp] theorem setT_qY : (setT e b).qY = e.qY := rfl
@[simp] theorem setT_qW : (setT e b).qW = e.qW := rfl
@[simp] theorem setT_qH : (setT e b).qH = e.qH := rfl

/-! ### `setQPoint`: QX and QY (10_state.md R22) -/

@[simp] theorem setQPoint_t : (setQPoint e p).t = e.t := rfl
@[simp] theorem setQPoint_err : (setQPoint e p).err = e.err := rfl
@[simp] theorem setQPoint_ecmd : (setQPoint e p).ecmd = e.ecmd := rfl
@[simp] theorem setQPoint_ch : (setQPoint e p).ch = e.ch := rfl
@[simp] theorem setQPoint_px : (setQPoint e p).px = e.px := rfl
@[simp] theorem setQPoint_uc : (setQPoint e p).uc = e.uc := rfl
@[simp] theorem setQPoint_dst : (setQPoint e p).dst = e.dst := rfl
@[simp] theorem setQPoint_src : (setQPoint e p).src = e.src := rfl
@[simp] theorem setQPoint_cnt : (setQPoint e p).cnt = e.cnt := rfl
@[simp] theorem setQPoint_sc : (setQPoint e p).sc = e.sc := rfl
@[simp] theorem setQPoint_aX : (setQPoint e p).aX = e.aX := rfl
@[simp] theorem setQPoint_aY : (setQPoint e p).aY = e.aY := rfl
@[simp] theorem setQPoint_aW : (setQPoint e p).aW = e.aW := rfl
@[simp] theorem setQPoint_aH : (setQPoint e p).aH = e.aH := rfl
@[simp] theorem setQPoint_bX : (setQPoint e p).bX = e.bX := rfl
@[simp] theorem setQPoint_bY : (setQPoint e p).bY = e.bY := rfl
@[simp] theorem setQPoint_bW : (setQPoint e p).bW = e.bW := rfl
@[simp] theorem setQPoint_bH : (setQPoint e p).bH = e.bH := rfl
@[simp] theorem setQPoint_qX : (setQPoint e p).qX = wrap32 p.x := rfl
@[simp] theorem setQPoint_qY : (setQPoint e p).qY = wrap32 p.y := rfl
@[simp] theorem setQPoint_qW : (setQPoint e p).qW = e.qW := rfl
@[simp] theorem setQPoint_qH : (setQPoint e p).qH = e.qH := rfl

/-! ### `setQRect`: QX, QY, QW and QH (10_state.md R22) -/

@[simp] theorem setQRect_t : (setQRect e r).t = e.t := rfl
@[simp] theorem setQRect_err : (setQRect e r).err = e.err := rfl
@[simp] theorem setQRect_ecmd : (setQRect e r).ecmd = e.ecmd := rfl
@[simp] theorem setQRect_ch : (setQRect e r).ch = e.ch := rfl
@[simp] theorem setQRect_px : (setQRect e r).px = e.px := rfl
@[simp] theorem setQRect_uc : (setQRect e r).uc = e.uc := rfl
@[simp] theorem setQRect_dst : (setQRect e r).dst = e.dst := rfl
@[simp] theorem setQRect_src : (setQRect e r).src = e.src := rfl
@[simp] theorem setQRect_cnt : (setQRect e r).cnt = e.cnt := rfl
@[simp] theorem setQRect_sc : (setQRect e r).sc = e.sc := rfl
@[simp] theorem setQRect_aX : (setQRect e r).aX = e.aX := rfl
@[simp] theorem setQRect_aY : (setQRect e r).aY = e.aY := rfl
@[simp] theorem setQRect_aW : (setQRect e r).aW = e.aW := rfl
@[simp] theorem setQRect_aH : (setQRect e r).aH = e.aH := rfl
@[simp] theorem setQRect_bX : (setQRect e r).bX = e.bX := rfl
@[simp] theorem setQRect_bY : (setQRect e r).bY = e.bY := rfl
@[simp] theorem setQRect_bW : (setQRect e r).bW = e.bW := rfl
@[simp] theorem setQRect_bH : (setQRect e r).bH = e.bH := rfl
@[simp] theorem setQRect_qX : (setQRect e r).qX = wrap32 r.x := rfl
@[simp] theorem setQRect_qY : (setQRect e r).qY = wrap32 r.y := rfl
@[simp] theorem setQRect_qW : (setQRect e r).qW = wrap32 r.w := rfl
@[simp] theorem setQRect_qH : (setQRect e r).qH = wrap32 r.h := rfl

end Sys2Proof.Machine
end

