-- ==== Sys2Proof/Laws/Ops.lean ====
section
/-! SUPPORT. What each shared operation can do, said once: addressing an engine, an operation on the window, a CMD
write, a command, a transaction. -/

namespace Sys2Proof.Machine

/-! ### The engines -/

theorem engines_length (s : State) : s.engines.length = s.before.length + (s.after.length + 1) := by
  simp [State.engines]

theorem index_lt_engines (s : State) : s.index < s.engines.length := by
  simp only [engines_length, State.index]; omega

@[simp] theorem engines_getElem?_index (s : State) : s.engines[s.index]? = some s.eng := by
  simp [State.engines, State.index]

theorem withEng_engines (s : State) (e : Engine) : (s.withEng e).engines = s.engines.set s.index e := by
  simp [State.engines, State.index, State.withEng]

/-- Everything that addressing a window does: the engines stay as they are, and engine `k` is the addressed one. -/
theorem focus_some {s s' : State} {k : Nat} (h : s.focus k = some s') :
    s'.index = k ∧ s'.engines = s.engines ∧ s.engines[k]? = some s'.eng ∧ s'.mem = s.mem ∧ s'.backed = s.backed ∧
      s'.inFlight = s.inFlight ∧ s'.script = s.script ∧ s'.responses = s.responses := by
  unfold State.focus at h
  split at h
  · rename_i e rest hd
    have hk : k < s.engines.length := by
      by_contra hge
      rw [List.drop_eq_nil_of_le (Nat.le_of_not_lt hge)] at hd
      cases hd
    have he : s.engines[k]? = some e := by
      rw [← List.head?_drop, hd]; rfl
    cases h
    refine ⟨by simp [State.index, Nat.min_eq_left hk.le], ?_, he, rfl, rfl, rfl, rfl, rfl⟩
    conv_rhs => rw [← List.take_append_drop k s.engines, hd]
    rfl
  · cases h

theorem focus_none_iff (s : State) (k : Nat) : s.focus k = none ↔ s.engines.length ≤ k := by
  unfold State.focus
  split
  · rename_i e rest hd
    simp only [reduceCtorEq, false_iff, Nat.not_le]
    by_contra hge
    rw [List.drop_eq_nil_of_le (Nat.le_of_not_lt hge)] at hd
    cases hd
  · rename_i hd
    simpa using hd

theorem focus_index (s : State) : s.focus s.index = some s := by
  have hd : s.engines.drop s.index = s.eng :: s.after := by simp [State.engines, State.index]
  have ht : s.engines.take s.index = s.before := by simp [State.engines, State.index]
  unfold State.focus
  rw [hd, ht]

/-! ### A command -/

/-- Everything a completed command can do: a row command changes pixel memory only; every other command changes the
registers of the addressed engine only (10_state.md R24). -/
theorem exec_next_cases {i : Instr} {s t : State} (h : exec i s = .next t) :
    (i = .cia ∧ rowsCompatible (dstRow s.eng) (srcRow s.eng) = true ∧ accessFault s (ciaAccess s.eng) = none ∧
      t = { s with mem := ciaRow s.mem s.eng.dst s.eng.src (unsigned s.eng.cnt) }) ∨
    (i = .mcc ∧ accessFault s (mccAccess s.eng) = none ∧
      t = { s with mem := mccRow s.mem s.eng.dst (unsigned s.eng.cnt) }) ∨
    (i ≠ .cia ∧ i ≠ .mcc ∧ ∃ e, t = s.withEng e) := by
  cases i
  case cia =>
    simp only [exec, execCia] at h
    split at h
    · rename_i hc
      split at h
      · cases h
      · rename_i hf; cases h; exact .inl ⟨rfl, hc, hf, rfl⟩
    · cases h
  case mcc =>
    simp only [exec, execMcc] at h
    split at h
    · cases h
    · rename_i hf; cases h; exact .inr (.inl ⟨rfl, hf, rfl⟩)
  case pdiv =>
    simp only [exec, execPdiv] at h
    split at h <;> cases h <;> exact .inr (.inr ⟨nofun, nofun, _, rfl⟩)
  all_goals
    refine .inr (.inr ⟨nofun, nofun, ?_⟩)
    cases h
    exact ⟨_, rfl⟩

/-- CIA completes iff its rows are compatible and its access is defined. -/
theorem exec_cia_next_iff (s t : State) :
    exec .cia s = .next t ↔
      rowsCompatible (dstRow s.eng) (srcRow s.eng) = true ∧ accessFault s (ciaAccess s.eng) = none ∧
        t = { s with mem := ciaRow s.mem s.eng.dst s.eng.src s.eng.cnt.toNat } := by
  constructor
  · intro h
    obtain ⟨-, hc, hf, ht⟩ | ⟨h, -⟩ | ⟨h, -⟩ := exec_next_cases h
    · exact ⟨hc, hf, ht⟩
    · cases h
    · exact absurd rfl h
  · rintro ⟨hc, hf, rfl⟩
    simp [exec, execCia, hc, hf, unsigned]

/-- MCC completes iff its access is defined. -/
theorem exec_mcc_next_iff (s t : State) :
    exec .mcc s = .next t ↔
      accessFault s (mccAccess s.eng) = none ∧ t = { s with mem := mccRow s.mem s.eng.dst s.eng.cnt.toNat } := by
  constructor
  · intro h
    obtain ⟨h, -⟩ | ⟨-, hf, ht⟩ | ⟨-, h, -⟩ := exec_next_cases h
    · cases h
    · exact ⟨hf, ht⟩
    · exact absurd rfl h
  · rintro ⟨hf, rfl⟩
    simp [exec, execMcc, hf, unsigned]

/-- A CIA that does not complete is a fault. -/
theorem exec_cia_fault {s : State}
    (h : rowsCompatible (dstRow s.eng) (srcRow s.eng) = false ∨ accessFault s (ciaAccess s.eng) ≠ none) :
    ∃ f, exec .cia s = .fault f := by
  simp only [exec, execCia]
  split
  · rename_i hc
    cases hf : accessFault s (ciaAccess s.eng) with
    | none => simp_all
    | some f => exact ⟨f, rfl⟩
  · exact ⟨_, rfl⟩

/-- An MCC that does not complete is a fault. -/
theorem exec_mcc_fault {s : State} (h : accessFault s (mccAccess s.eng) ≠ none) : ∃ f, exec .mcc s = .fault f := by
  cases hf : accessFault s (mccAccess s.eng) with
  | none => exact absurd hf h
  | some f => exact ⟨f, by simp [exec, execMcc, hf]⟩

/-- The environment's data are no command's. -/
theorem exec_next_env {i : Instr} {s t : State} (h : exec i s = .next t) :
    t.before = s.before ∧ t.after = s.after ∧ t.backed = s.backed ∧ t.inFlight = s.inFlight ∧ t.script = s.script ∧
      t.responses = s.responses := by
  obtain ⟨-, -, -, rfl⟩ | ⟨-, -, rfl⟩ | ⟨-, -, e, rfl⟩ := exec_next_cases h <;> exact ⟨rfl, rfl, rfl, rfl, rfl, rfl⟩

/-- A command keeps the canonical form of pixel memory. -/
theorem exec_next_memWf {i : Instr} {s t : State} (h : exec i s = .next t) (wf : Memory.wf s.mem) :
    Memory.wf t.mem := by
  obtain ⟨-, -, -, rfl⟩ | ⟨-, -, rfl⟩ | ⟨-, -, e, rfl⟩ := exec_next_cases h
  · exact ciaRow_wf _ _ _ _ wf
  · exact mccRow_wf _ _ _ wf
  · exact wf

/-! ### A CMD write and a transaction -/

/-- Everything a CMD write that ends in a next state can do (60_exceptions.md R128). -/
theorem commandWrite_next_cases {w : Word} {s t : State} (h : commandWrite w s = .next t) :
    (s.eng.halted = true ∧ t = s) ∨
    (s.eng.halted = false ∧ (∃ r, decode w = .error r) ∧ t = raiseError .illegalCmd w s) ∨
    (s.eng.halted = false ∧ ∃ i, decode w = .ok i ∧ exec i s = .next t) := by
  unfold commandWrite at h
  split at h
  · rename_i hh; cases h; exact .inl ⟨hh, rfl⟩
  · rename_i hh
    have hh : s.eng.halted = false := by simpa using hh
    split at h
    · rename_i r hd; cases h; exact .inr (.inl ⟨hh, ⟨r, hd⟩, rfl⟩)
    · rename_i i hd; exact .inr (.inr ⟨hh, i, hd, h⟩)

theorem onWindow_next {k : Nat} {s t : State} {action : State → Result} (h : onWindow k s action = .next t) :
    s.busy k = false ∧ ∃ s', s.focus k = some s' ∧ action s' = .next t := by
  unfold onWindow at h
  split at h
  · cases h
  · rename_i hb
    split at h
    · rename_i s' hf; exact ⟨by simpa using hb, s', hf, h⟩
    · cases h

/-- A register write that is no CMD write changes the registers of the addressed engine only. -/
theorem registerWrite_next_cases {number : Nat} {v : Word} {s t : State} (h : registerWrite number v s = .next t) :
    (regOfNumber number = some .cmd ∧ commandWrite v s = .next t) ∨
    (∃ r, r ≠ .cmd ∧ regOfNumber number = some r ∧ t = s.withEng (writeReg s.eng r v)) ∨
    (regOfNumber number = none ∧ t = s) := by
  unfold registerWrite at h
  split at h
  · rename_i hr; exact .inl ⟨hr, h⟩
  · rename_i r hne hr
    cases h
    exact .inr (.inl ⟨r, hne, hr, rfl⟩)
  · rename_i hr; cases h; exact .inr (.inr ⟨hr, rfl⟩)

theorem commandBegin_next {w : Word} {s t : State} (h : commandBegin w s = .next t) :
    ∃ u, commandWrite w s = .next u ∧ t = { u with inFlight := ⟨s.index, commandAccess w s⟩ :: u.inFlight } := by
  unfold commandBegin at h
  split at h
  · rename_i u hu; cases h; exact ⟨u, hu, rfl⟩
  · cases h
  · cases h

theorem platformWrite_next {addr : Word} {vs : List Pixel} {s t : State} (h : platformWrite addr vs s = .next t) :
    accessFault s ⟨[], [⟨addr, vs.length⟩]⟩ = none ∧ t = { s with mem := writeRow s.mem addr vs } := by
  unfold platformWrite at h
  split at h
  · cases h
  · rename_i hf; cases h; exact ⟨hf, rfl⟩

theorem platformRead_next {addr : Word} {s t : State} (h : platformRead addr s = .next t) :
    accessFault s ⟨[⟨addr, 1⟩], []⟩ = none ∧
      t = { s with responses := s.responses ++ [.pixel addr (readPixel s.mem addr)] } := by
  unfold platformRead at h
  split at h
  · cases h
  · rename_i hf; cases h; exact ⟨hf, rfl⟩

theorem commandEnd_next {k : Nat} {s t : State} (h : commandEnd k s = .next t) :
    s.busy k = true ∧ t = { s with inFlight := s.inFlight.filter fun f => f.engine != k } := by
  unfold commandEnd at h
  split at h
  · rename_i hb; cases h; exact ⟨hb, rfl⟩
  · cases h

theorem step_empty {s : State} (h : s.script = []) : step s = .next s := by simp [step, h]

theorem step_cons {s : State} {ev : Event} {rest : List Event} (h : s.script = ev :: rest) :
    step s = perform ev { s with script := rest } := by simp [step, h]

/-- Taking the transaction off the script does not change which window it addresses. -/
theorem focus_script (s : State) (k : Nat) (rest : List Event) :
    State.focus { s with script := rest } k = (s.focus k).map fun s' => { s' with script := rest } := by
  unfold State.focus
  show (match s.engines.drop k with | e :: after => _ | [] => none) = _
  cases s.engines.drop k <;> rfl

/-! ### The register window -/

@[simp] theorem regOfNumber_regNumber (r : Reg) : regOfNumber (regNumber r) = some r := by cases r <;> rfl

theorem regNumber_of_regOfNumber {k : Nat} {r : Reg} (h : regOfNumber k = some r) : regNumber r = k := by
  have := List.find?_some h
  simpa using this

theorem regNumber_lt (r : Reg) : regNumber r < 0x16 := by cases r <;> decide

end Sys2Proof.Machine
end

