-- ==== Sys2Proof/Laws/Bus.lean ====
section
/-! SUPPORT. What a transaction leaves alone, said once: the part of the state around the addressed engine, the other
engines, the window's being free; and when a CMD write meets a race. -/

namespace Sys2Proof.Machine

/-- A CMD write that ends in a next state changes the addressed engine and pixel memory, and nothing else. -/
theorem commandWrite_next_env {w : Word} {s t : State} (h : commandWrite w s = .next t) :
    t.before = s.before ∧ t.after = s.after ∧ t.backed = s.backed ∧ t.inFlight = s.inFlight ∧ t.script = s.script ∧
      t.responses = s.responses := by
  obtain ⟨-, rfl⟩ | ⟨-, -, rfl⟩ | ⟨-, i, -, h⟩ := commandWrite_next_cases h
  · exact ⟨rfl, rfl, rfl, rfl, rfl, rfl⟩
  · exact ⟨rfl, rfl, rfl, rfl, rfl, rfl⟩
  · exact exec_next_env h

/-- A register write, a CMD write included, changes the addressed engine and pixel memory, and nothing else. -/
theorem registerWrite_next_env {n : Nat} {v : Word} {s t : State} (h : registerWrite n v s = .next t) :
    t.before = s.before ∧ t.after = s.after ∧ t.backed = s.backed ∧ t.inFlight = s.inFlight ∧ t.script = s.script ∧
      t.responses = s.responses := by
  obtain ⟨-, h⟩ | ⟨r, -, -, rfl⟩ | ⟨-, rfl⟩ := registerWrite_next_cases h
  · exact commandWrite_next_env h
  · exact ⟨rfl, rfl, rfl, rfl, rfl, rfl⟩
  · exact ⟨rfl, rfl, rfl, rfl, rfl, rfl⟩

/-- Replacing the addressed engine changes no other one. -/
theorem withEng_engines_other {s : State} {e : Engine} {j : Nat} (h : j ≠ s.index) :
    (s.withEng e).engines[j]? = s.engines[j]? := by
  rw [withEng_engines, List.getElem?_set_ne (Ne.symm h)]

/-- Two states with the same engines around the addressed one agree on every other engine. -/
theorem engines_other_of_env {s t : State} (hb : t.before = s.before) (ha : t.after = s.after) {j : Nat}
    (h : j ≠ s.index) : t.engines[j]? = s.engines[j]? := by
  have e : t.engines = (s.withEng t.eng).engines := by simp [State.engines, State.withEng, hb, ha]
  rw [e, withEng_engines_other h]

/-- Two states with the same engines around the addressed one have equally many engines. -/
theorem engines_length_of_env {s t : State} (hb : t.before = s.before) (ha : t.after = s.after) :
    t.engines.length = s.engines.length := by
  simp [engines_length, hb, ha]

/-- Whether a window is busy depends on the CMD writes in flight only. -/
theorem busy_congr {s t : State} (h : t.inFlight = s.inFlight) (k : Nat) : t.busy k = s.busy k := by
  simp [State.busy, h]

/-- An engine of the system can be addressed, and is then the addressed one. -/
theorem focus_of_engine {s : State} {k : Nat} {e : Engine} (he : s.engines[k]? = some e) :
    ∃ s₁, s.focus k = some s₁ ∧ s₁.eng = e := by
  cases hf : s.focus k with
  | none =>
    rw [focus_none_iff] at hf
    rw [List.getElem?_eq_none hf] at he
    cases he
  | some s₁ =>
    refine ⟨s₁, rfl, ?_⟩
    have h := (focus_some hf).2.2.1
    rw [he] at h
    cases h
    rfl

/-- A write to CMD of a free window is a CMD write at its engine. -/
theorem perform_cmd {s s₁ : State} {k : Nat} {w : Word} (hb : s.busy k = false) (hf : s.focus k = some s₁) :
    perform (.write k 0x00 w) s = commandWrite w s₁ := by
  simp only [perform, onWindow, hb, hf]
  rfl

/-- The access set of a CMD write depends on the addressed engine only. -/
theorem commandAccess_congr {w : Word} {s t : State} (h : t.eng = s.eng) : commandAccess w t = commandAccess w s := by
  simp [commandAccess, h]

/-- An access set that conflicts with a command in flight is not free of faults. -/
theorem accessFault_of_race {s : State} {f : InFlight} {acc : Access} (hf : f ∈ s.inFlight)
    (h : acc.conflicts f.access = true) : accessFault s acc ≠ none := by
  intro hn
  have hr := ((accessFault_none_iff s acc).1 hn).2
  simp only [racesInFlight, List.any_eq_false] at hr
  exact hr f hf h

end Sys2Proof.Machine
end

