-- ==== Sys2Proof/Laws/PerInstr.lean ====
section
/-! SUPPORT. Statements about every command as syntax, one lemma per constructor. -/

namespace Sys2Proof.Laws.RoundTrip

/-- The word of a command decodes to it (30_encoding.md R62). -/
def Statement (i : Instr) : Prop := i.wf = true ∧ decode (encode i) = .ok i

theorem pack : Statement .pack := ⟨rfl, rfl⟩
theorem unpack : Statement .unpack := ⟨rfl, rfl⟩
theorem pxtst : Statement .pxtst := ⟨rfl, rfl⟩
theorem cia : Statement .cia := ⟨rfl, rfl⟩
theorem mcc : Statement .mcc := ⟨rfl, rfl⟩
theorem padd : Statement .padd := ⟨rfl, rfl⟩
theorem psub : Statement .psub := ⟨rfl, rfl⟩
theorem pmul : Statement .pmul := ⟨rfl, rfl⟩
theorem pdiv : Statement .pdiv := ⟨rfl, rfl⟩
theorem plt : Statement .plt := ⟨rfl, rfl⟩
theorem radd : Statement .radd := ⟨rfl, rfl⟩
theorem rsub : Statement .rsub := ⟨rfl, rfl⟩
theorem rint : Statement .rint := ⟨rfl, rfl⟩
theorem rtst : Statement .rtst := ⟨rfl, rfl⟩

end Sys2Proof.Laws.RoundTrip
end

