-- ==== Sys2Proof/Tests/Slice0.lean ====
section
/-! SUPPORT. Tests: the well-formedness smoke, the command words, one or two single steps per command from the vectors of
spec/95_test_vectors.md (each named in its comment), and a witness for the hypotheses of each statement. -/

namespace Sys2Proof.Tests

open Sys2Proof Sys2Proof.Machine

/-! ### Helpers -/

/-- A next state with a property. -/
def nextThen (o : Result) (p : State → Bool) : Bool :=
  match o with
  | .next s => p s
  | .fault _ => false
  | .refused _ => false

/-- The fault a result is, if it is one. -/
def faultOf (o : Result) : Option Fault :=
  match o with
  | .next _ => none
  | .fault f => some f
  | .refused _ => none

theorem exists_fault {o : Result} {f : Fault} (h : faultOf o = some f) : o = .fault f := by
  cases o with
  | next t => cases h
  | fault g => cases h; rfl
  | refused r => cases h

theorem exists_next {o : Result} {p : State → Bool} (h : nextThen o p = true) : ∃ t, o = .next t ∧ p t = true := by
  cases o with
  | next t => exact ⟨t, rfl, h⟩
  | fault f => cases h
  | refused r => cases h

/-- A machine with one engine, these registers, and these pixel words written. -/
def machine (e : Engine) (m : Memory := []) : State := { State.reset with eng := e, mem := m }

/-- Point operands A and B and the scalar. -/
def points (ax ay bx bY sc : Int) : State :=
  machine { Engine.atReset with aX := pattern ax, aY := pattern ay, bX := pattern bx, bY := pattern bY, sc := pattern sc }

/-- Rectangle operands A and B, with Q and T set, to see them overwritten or kept. -/
def rects (ax ay aw ah bx bY bw bh : Int) : State :=
  machine { Engine.atReset with
    aX := pattern ax, aY := pattern ay, aW := pattern aw, aH := pattern ah
    bX := pattern bx, bY := pattern bY, bW := pattern bw, bH := pattern bh }

/-- The row registers. -/
def rowRegs (dst src cnt : Word) : Engine := { Engine.atReset with dst := dst, src := src, cnt := cnt }

/-- QX, QY, QW, QH and T of the addressed engine. -/
def qt (s : State) : Word × Word × Word × Word × Bool := (s.eng.qX, s.eng.qY, s.eng.qW, s.eng.qH, s.eng.t)

/-! ### Well-formedness -/

/-- A channel wider than the raw 8-bit input, and no other fault: N18. -/
def wideChannel : PixelFormat := ⟨16, ⟨1, 15⟩, ⟨9, 6⟩, ⟨3, 3⟩, ⟨3, 0⟩⟩

/-- 00_scope.md R2: the format of this hardware passes. -/
theorem test_wf_argb1555 : Config.argb1555.wf = true := by decide
/-- R3: "the sum of the four bit-widths must not exceed the storage width". -/
theorem test_wf_refuses_widths : PixelFormat.widthsFit ⟨15, ⟨1, 14⟩, ⟨5, 9⟩, ⟨5, 4⟩, ⟨5, 0⟩⟩ = false ∧
    PixelFormat.wf ⟨15, ⟨1, 14⟩, ⟨5, 9⟩, ⟨5, 4⟩, ⟨5, 0⟩⟩ = false := by decide
/-- R3: "every channel must have at least 1 bit". -/
theorem test_wf_refuses_empty_channel : PixelFormat.everyChannelPresent ⟨16, ⟨0, 15⟩, ⟨5, 10⟩, ⟨5, 5⟩, ⟨5, 0⟩⟩ = false ∧
    PixelFormat.wf ⟨16, ⟨0, 15⟩, ⟨5, 10⟩, ⟨5, 5⟩, ⟨5, 0⟩⟩ = false := by decide
/-- N18: a field past the top of the word. -/
theorem test_wf_refuses_field_outside : PixelFormat.fieldsInsideWord ⟨16, ⟨1, 16⟩, ⟨5, 10⟩, ⟨5, 5⟩, ⟨5, 0⟩⟩ = false ∧
    PixelFormat.wf ⟨16, ⟨1, 16⟩, ⟨5, 10⟩, ⟨5, 5⟩, ⟨5, 0⟩⟩ = false := by decide
theorem test_wf_refuses_wide_channel : wideChannel.channelsNarrow = false ∧ wideChannel.widthsFit = true ∧
    wideChannel.fieldsDisjoint = true ∧ wideChannel.wf = false := by decide
/-- N18: red and green share bit 9. -/
theorem test_wf_refuses_overlap : PixelFormat.fieldsDisjoint ⟨16, ⟨1, 15⟩, ⟨5, 9⟩, ⟨5, 5⟩, ⟨5, 0⟩⟩ = false ∧
    PixelFormat.wf ⟨16, ⟨1, 15⟩, ⟨5, 9⟩, ⟨5, 5⟩, ⟨5, 0⟩⟩ = false := by decide
/-- 30_encoding.md R66: `chan` takes 0 to 255; a number names a 32-bit pattern (that -2^32 is refused is the model's
choice, log 22). -/
theorem test_wf_refuses_lines : (Line.chan 256 0 0 0).wf = false ∧ (Line.chan 0 0 0 256).wf = false ∧
    (Line.wr .cnt 4294967296).wf = false ∧ (Line.point .a (-4294967296) 0).wf = false ∧
    (Line.rect .b 0 0 4294967296 0).wf = false ∧ (Line.row 0 0 4294967296).wf = false ∧
    (Line.cmdw 4294967296).wf = false ∧ (Line.chan 255 0 0 255).wf = true := by decide

/-! ### Command words -/

/-- 30_encoding.md R62, the words of the table. -/
theorem test_decode_pixelformat : decode 0x00000010 = .ok .pack ∧ decode 0x00000011 = .ok .unpack ∧
    decode 0x00000012 = .ok .pxtst := ⟨rfl, rfl, rfl⟩
theorem test_decode_compositor : decode 0x00000020 = .ok .cia ∧ decode 0x00000021 = .ok .mcc := ⟨rfl, rfl⟩
theorem test_decode_points : decode 0x00000030 = .ok .padd ∧ decode 0x00000031 = .ok .psub ∧
    decode 0x00000032 = .ok .pmul ∧ decode 0x00000033 = .ok .pdiv ∧ decode 0x00000034 = .ok .plt :=
  ⟨rfl, rfl, rfl, rfl, rfl⟩
theorem test_decode_rectangles : decode 0x00000038 = .ok .radd ∧ decode 0x00000039 = .ok .rsub ∧
    decode 0x0000003A = .ok .rint ∧ decode 0x0000003B = .ok .rtst := ⟨rfl, rfl, rfl, rfl⟩
/-- V-ERR-1 to V-ERR-6: the illegal words, by the class of R63. -/
theorem test_decode_illegal : decode 0x00000000 = .error (.unassignedOpcode 0x00) ∧
    decode 0xFFFFFFFF = .error (.reservedBitsSet 0xFFFFFF) ∧ decode 0x00000110 = .error (.reservedBitsSet 1) ∧
    decode 0x00000013 = .error (.unassignedOpcode 0x13) ∧ decode 0x00000035 = .error (.unassignedOpcode 0x35) ∧
    decode 0x0000003C = .error (.unassignedOpcode 0x3C) := ⟨rfl, rfl, rfl, rfl, rfl, rfl⟩
/-- A row's bits above its width are 0, and a value beyond 32 bits is no command word (R60). -/
theorem test_decodeTableWord : decodeTableWord 32 0x3A = some .rint ∧ decodeTableWord 8 0x10 = some .pack ∧
    decodeTableWord 40 0x100000010 = none := by decide

/-! ### One step per command -/

/-- V-PACK-5. -/
theorem test_pack : nextThen (exec .pack (machine { Engine.atReset with ch := 0xFF081018, px := 0xFFFF }))
    (fun s => s.eng.px == 0x8443 && s.eng.ch == 0xFF081018) = true := by decide
/-- V-PACK-4: the low bits are dropped, no rounding. -/
theorem test_pack_truncates : nextThen (exec .pack (machine { Engine.atReset with ch := 0x7FFFFFFF }))
    (fun s => s.eng.px == 0x7FFF) = true := by decide
/-- V-UNPK-4. -/
theorem test_unpack : nextThen (exec .unpack (machine { Engine.atReset with px := 0xABCD }))
    (fun s => s.eng.uc == 0x010A1E0D && s.eng.px == 0xABCD) = true := by decide
/-- V-UNPK-8: the unused bits of UC stay 0. -/
theorem test_unpack_ones : nextThen (exec .unpack (machine { Engine.atReset with px := 0xFFFF, uc := 0xFFFFFFFF }))
    (fun s => s.eng.uc == 0x011F1F1F) = true := by decide
/-- V-PXT-2: alpha clear, still true. -/
theorem test_pxtst : nextThen (exec .pxtst (machine { Engine.atReset with px := 0x0001 })) (fun s => s.eng.t) = true := by
  decide
/-- V-PXT-1: the only false Pixel clears T. -/
theorem test_pxtst_zero : nextThen (exec .pxtst (machine { Engine.atReset with t := true })) (fun s => !s.eng.t) = true := by
  decide
/-- V-CIA-8: the row wraps at 2^32; here the second source word has its alpha clear and is not copied. -/
theorem test_cia_wraps : nextThen (exec .cia (machine (rowRegs 0xFFFFFFFF 0x10 2)
      [(0x0, 0x0BBB), (0x10, 0x8001), (0x11, 0x7FFF), (0xFFFFFFFF, 0x0AAA)]))
    (fun s => s.mem == [(0x0, 0x0BBB), (0x10, 0x8001), (0x11, 0x7FFF), (0xFFFFFFFF, 0x8001)]) = true := by decide
/-- V-CIA-9: (b) partial overlap, a fault of the model; (c) with n = 0 it is none. -/
theorem test_cia_overlap : faultOf (exec .cia (machine (rowRegs 0x101 0x100 4))) = some .rowOverlap ∧
    nextThen (exec .cia (machine (rowRegs 0x109 0x100 0))) (· == machine (rowRegs 0x109 0x100 0)) = true := by decide
/-- V-MCC-2, with the word after the row kept. -/
theorem test_mcc : nextThen (exec .mcc (machine (rowRegs 0x300 0 1) [(0x300, 0xFFFF), (0x301, 0x8000)]))
    (fun s => s.mem == [(0x300, 0x7FFF), (0x301, 0x8000)]) = true := by decide
/-- 20_memory.md R48: an unbacked word, a fault of the model. -/
theorem test_mcc_unbacked : faultOf (exec .mcc { machine (rowRegs 0x300 0 10) with backed := [⟨0x300, 9⟩] }) =
    some .unbackedAccess := by decide
/-- V-PAS-2, PADD: the overflow wraps. -/
theorem test_padd : nextThen (exec .padd (points 2147483647 0 1 0 0))
    (fun s => qt s == (0x80000000, 0, 0, 0, false)) = true := by decide
/-- V-PAS-1, PSUB: the order is A - B. -/
theorem test_psub : nextThen (exec .psub (points 1 2 3 4 0))
    (fun s => qt s == (0xFFFFFFFE, 0xFFFFFFFE, 0, 0, false)) = true := by decide
/-- V-PMUL-3. -/
theorem test_pmul : nextThen (exec .pmul (points (-2147483648) 1 9 9 (-1)))
    (fun s => qt s == (0x80000000, 0xFFFFFFFF, 0, 0, false)) = true := by decide
/-- V-PDIV-2: toward zero. -/
theorem test_pdiv : nextThen (exec .pdiv (points 7 (-7) 9 9 (-2)))
    (fun s => qt s == (0xFFFFFFFD, 0x00000003, 0, 0, false)) = true := by decide
/-- V-PDIV-7: DIV_ZERO. -/
theorem test_pdiv_zero : nextThen (exec .pdiv (points 5 5 9 9 0))
    (fun s => qt s == (0, 0, 0, 0, false) && readReg s.eng .status == 0x00000020 && s.eng.ecmd == 0x00000033) = true := by
  decide
/-- V-PLT-6: y by its unsigned pattern. -/
theorem test_plt : nextThen (exec .plt (points 0 (-1) 0 0 0)) (fun s => !s.eng.t) = true := by decide
/-- V-PLT-5: x signed. -/
theorem test_plt_x_signed : nextThen (exec .plt (points (-1) 0 0 0 0)) (fun s => s.eng.t) = true := by decide
/-- V-RAS-4, RADD. -/
theorem test_radd : nextThen (exec .radd (rects 2147483647 (-2147483648) 5 6 1 (-1) 7 7))
    (fun s => qt s == (0x80000000, 0x7FFFFFFF, 5, 6, false)) = true := by decide
/-- V-RAS-3, RSUB: a negative width is copied. -/
theorem test_rsub : nextThen (exec .rsub (rects 3 3 (-2) 5 1 1 7 7))
    (fun s => qt s == (2, 2, 0xFFFFFFFE, 5, false)) = true := by decide
/-- V-RINT-13: inputs whose `x + w` leaves the signed range. -/
theorem test_rint : nextThen (exec .rint (rects 2147483638 0 100 1 0 0 2147483647 1))
    (fun s => qt s == (0x7FFFFFF6, 0, 9, 1, true)) = true := by decide
/-- V-RINT-15: far apart; reduction modulo 2^32 would give a non-empty result. -/
theorem test_rint_far_apart : nextThen (exec .rint (rects (-2147483648) 0 1 1 2147483646 0 1 1))
    (fun s => qt s == (0, 0, 0, 0, false)) = true := by decide
/-- V-RTST-2. -/
theorem test_rtst : nextThen (exec .rtst (rects 0 0 1 1 0 0 0 0)) (fun s => s.eng.t) = true := by decide
/-- V-RTST-7. -/
theorem test_rtst_negative : nextThen (exec .rtst (rects 0 0 (-2147483648) 1 0 0 1 1)) (fun s => !s.eng.t) = true := by
  decide

/-! ### Transactions -/

/-- V-ERR-3: RSV ≠ 0. -/
theorem test_illegal_word : nextThen (perform (.write 0 0x00 0x00000110) State.reset)
    (fun s => readReg s.eng .status == 0x00000010 && s.eng.ecmd == 0x00000110) = true := by decide
/-- V-ERR-7: T survives the error. -/
theorem test_error_keeps_t : nextThen (perform (.write 0 0x00 0x00000022) (machine { Engine.atReset with t := true }))
    (fun s => readReg s.eng .status == 0x00000011) = true := by decide
/-- V-ERR-5: the first error is kept, the second write is ignored. -/
theorem test_halted : perform (.write 0 0x00 0x00000037)
    (machine { Engine.atReset with err := .illegalCmd, ecmd := 0x35 }) =
    .next (machine { Engine.atReset with err := .illegalCmd, ecmd := 0x35 }) := rfl
/-- V-ERR-10: reset leaves the halted state and clears CH. -/
theorem test_reset : perform (.reset 0)
    (machine { Engine.atReset with err := .divZero, ecmd := 0x33, ch := 0xFFFFFFFF } [(5, 7)]) =
    .next (machine Engine.atReset [(5, 7)]) := rfl
/-- V-PXT-8: the upper bits of a write to PX are ignored. -/
theorem test_write_px : nextThen (perform (.write 0 0x04 0x12348000) State.reset)
    (fun s => readReg s.eng .px == 0x00008000) = true := by decide
/-- V-REG-1, V-REG-2, V-REG-4: read-only and reserved numbers ignore writes. -/
theorem test_ignored_writes : perform (.write 0 0x01 0xFFFFFFFF) State.reset = .next State.reset ∧
    perform (.write 0 0x12 7) State.reset = .next State.reset ∧
    perform (.write 0 0x16 0x12345678) State.reset = .next State.reset ∧
    perform (.write 0 0xFF 0x12345678) State.reset = .next State.reset := ⟨rfl, rfl, rfl, rfl⟩
/-- V-REG-5. -/
theorem test_read : nextThen (perform (.read 0 0x0A) (machine { Engine.atReset with aX := 0xFFFFFFFF }))
    (fun s => s.responses == [.reg 0 0x0A 0xFFFFFFFF]) = true := by decide
/-- 30_encoding.md R66, the encoding column of script P1 and P4 (95_test_vectors.md section 3). -/
theorem test_script_lines : scriptEvents 0 (scriptPixelFromARGB8 255 8 16 24) =
      [.write 0 0x03 0xFF081018, .write 0 0x00 0x00000010, .read 0 0x04] ∧
    scriptEvents 0 [.point .a 100 (-100)] = [.write 0 0x0A 0x00000064, .write 0 0x0B 0xFFFFFF9C] := by decide
/-- 20_memory.md R43; without an order the default `little`. -/
theorem test_byte_view : readByte [(1, 0xABCD)] 2 = 0xCD ∧ readByte [(1, 0xABCD)] 3 = 0xAB ∧
    readByte [(1, 0xABCD)] 2 .big = 0xAB ∧ readByte [(1, 0xABCD)] 3 .big = 0xCD := by decide

/-! ### Witnesses: states and operands that meet the hypotheses of each statement together -/

/-- Rows that wrap at 2^32, with a CMD write of another engine in flight elsewhere. -/
def rowsMachine : State :=
  { machine (rowRegs 0xFFFFFFFF 0x10 2) [(0x0, 0x0BBB), (0x10, 0x8001), (0x11, 0x7FFF), (0xFFFFFFFF, 0x0AAA)] with
    after := [Engine.atReset], inFlight := [⟨1, ⟨[⟨0x10, 2⟩], [⟨0x30, 2⟩]⟩⟩] }

/-- An engine halted by ILLEGAL_CMD, with T set and a Q. -/
def haltedEngine : Engine := { Engine.atReset with t := true, err := .illegalCmd, ecmd := 0x35, qX := 7 }

/-- Two engines whose CIA rows are disjoint (95_test_vectors.md, script P6, with one element each). -/
def twoEngines : State :=
  { machine (rowRegs 0x1000 0x2000 1) [(0x2000, 0x8001), (0x2008, 0x8018)] with after := [rowRegs 0x1010 0x2008 1] }

/-- Script P6's variant: the two destination rows overlap. -/
def racingEngines : State := { machine (rowRegs 0x1000 0x2000 8) with after := [rowRegs 0x1005 0x2008 8] }

theorem witness_IllegalWordRaisesIllegalCmd :
    (State.reset.eng.err = .noError ∧ ∀ w ∈ ([0x00, 0x13, 0x1F, 0x35, 0x3C, 0xFF, 0x110, 0xFFFFFFFF] : List Word),
      w ∉ ([0x10, 0x11, 0x12, 0x20, 0x21, 0x30, 0x31, 0x32, 0x33, 0x34, 0x38, 0x39, 0x3A, 0x3B] : List Word)) ∧
    State.reset.eng.err ≠ .illegalCmd ∧ ∃ t, exec .pdiv State.reset = .next t :=
  ⟨⟨rfl, by simp⟩, by decide, _, rfl⟩

theorem witness_CiaCompositesTheDestinationRow :
    (∀ i < rowsMachine.eng.cnt.toNat, wordBacked rowsMachine.backed (elementAddr rowsMachine.eng.dst i) = true ∧
      wordBacked rowsMachine.backed (elementAddr rowsMachine.eng.src i) = true) ∧
    (rowsMachine.eng.dst = rowsMachine.eng.src ∨ ∀ i j, i < rowsMachine.eng.cnt.toNat → j < rowsMachine.eng.cnt.toNat →
      elementAddr rowsMachine.eng.dst i ≠ elementAddr rowsMachine.eng.src j) ∧
    ∀ f ∈ rowsMachine.inFlight, ∀ i < rowsMachine.eng.cnt.toNat,
      f.access.readsWord (elementAddr rowsMachine.eng.dst i) = false ∧
      f.access.writesWord (elementAddr rowsMachine.eng.dst i) = false ∧
      f.access.writesWord (elementAddr rowsMachine.eng.src i) = false := by
  refine ⟨by decide, .inr fun i j hi hj => ?_, by decide⟩
  have hi : i < 2 := hi
  have hj : j < 2 := hj
  interval_cases i <;> interval_cases j <;> decide

/-- The row on itself, the other side of the disjunction, with V-CIA-7's rows. -/
theorem witness_CiaCompositesTheDestinationRow_same_row :
    (∀ i < (rowRegs 0x200 0x200 9).cnt.toNat, wordBacked State.reset.backed (elementAddr 0x200 i) = true) ∧
    (rowRegs 0x200 0x200 9).dst = (rowRegs 0x200 0x200 9).src ∧ State.reset.inFlight = [] := by decide

theorem witness_MccMasksTheRow :
    (∀ i < rowsMachine.eng.cnt.toNat, wordBacked rowsMachine.backed (elementAddr rowsMachine.eng.dst i) = true) ∧
    ∀ f ∈ rowsMachine.inFlight, ∀ i < rowsMachine.eng.cnt.toNat,
      f.access.readsWord (elementAddr rowsMachine.eng.dst i) = false ∧
      f.access.writesWord (elementAddr rowsMachine.eng.dst i) = false := by decide

theorem rowsMachine_cia : ∃ t, exec .cia rowsMachine = .next t ∧ (t.mem != rowsMachine.mem) = true :=
  exists_next (by decide)

theorem witness_CiaTwiceIsCiaOnce : ∃ t, exec .cia rowsMachine = .next t :=
  let ⟨t, h, _⟩ := rowsMachine_cia
  ⟨t, h⟩

theorem witness_MccIsIdempotent :
    (∃ t, exec .mcc rowsMachine = .next t) ∧
    ∀ i < rowsMachine.eng.cnt.toNat, readPixel rowsMachine.mem (elementAddr rowsMachine.eng.dst i) &&& 0x8000 = 0 :=
  ⟨let ⟨t, h, _⟩ := exists_next (o := exec .mcc rowsMachine) (p := fun _ => true) (by decide); ⟨t, h⟩, by decide⟩

theorem witness_MaskedRowAsSourceChangesNothing : ∃ t u : State,
    exec .mcc (machine (rowRegs 0x300 0 1) [(0x300, 0xFFFF)]) = .next t ∧
    exec .cia { t with eng := { t.eng with src := t.eng.dst, dst := 0x400 } } = .next u := by
  obtain ⟨t, h, p⟩ := exists_next (o := exec .mcc (machine (rowRegs 0x300 0 1) [(0x300, 0xFFFF)]))
    (p := fun t => nextThen (exec .cia { t with eng := { t.eng with src := t.eng.dst, dst := 0x400 } }) fun _ => true)
    (by decide)
  obtain ⟨u, hu, -⟩ := exists_next p
  exact ⟨t, u, h, hu⟩

/-- Nine elements, disjoint rows, one of them across the wrap. -/
theorem witness_CiaLaneGroupsMatchTheElementRule : (9 : Nat) < 2 ^ 32 ∧
    ((0xFFFFFFFC : Word) = 0x100 ∨ ∀ i j, i < 9 → j < 9 → elementAddr 0xFFFFFFFC i ≠ elementAddr 0x100 j) := by
  refine ⟨by decide, .inr fun i j hi hj => ?_⟩
  interval_cases i <;> interval_cases j <;> decide

/-- The longest row, on itself. -/
theorem witness_CiaLaneGroupsMatchTheElementRule_same_row :
    (2 ^ 32 - 1 : Nat) < 2 ^ 32 ∧ ((0x200 : Word) = 0x200 ∨ False) := by decide

theorem witness_MccLaneGroupsMatchTheElementRule : (0 : Nat) < 2 ^ 32 ∧ (2 ^ 32 - 1 : Nat) < 2 ^ 32 := by decide

/-- V-CIA-9 (a): element 9 is unbacked; and a source row alone unbacked. -/
theorem witness_RowCommandFaultsOnAnUnbackedWord :
    (9 < (rowRegs 0x100 0x200 10).cnt.toNat ∧ wordBacked [⟨0x100, 9⟩, ⟨0x200, 9⟩] (elementAddr 0x100 9) = false) ∧
    9 < (rowRegs 0x100 0x200 10).cnt.toNat ∧ (wordBacked [⟨0x100, 10⟩, ⟨0x200, 9⟩] (elementAddr 0x100 9) = false ∨
      wordBacked [⟨0x100, 10⟩, ⟨0x200, 9⟩] (elementAddr 0x200 9) = false) := by decide

/-- V-CIA-9 (b). -/
theorem witness_CiaFaultsOnPartlyOverlappingRows : (rowRegs 0x101 0x100 4).dst ≠ (rowRegs 0x101 0x100 4).src ∧
    0 < (rowRegs 0x101 0x100 4).cnt.toNat ∧ 1 < (rowRegs 0x101 0x100 4).cnt.toNat ∧
    elementAddr 0x101 0 = elementAddr 0x100 1 := by decide

/-- A word that is read, one that is written, and a source word that is written, by the command in flight. -/
theorem witness_RowCommandFaultsOnADataRace :
    ∃ g ∈ ([⟨1, ⟨[⟨0x30, 1⟩], [⟨0x40, 1⟩]⟩⟩] : List InFlight), 0 < (rowRegs 0x30 0x40 1).cnt.toNat ∧
      g.access.readsWord (elementAddr 0x30 0) = true ∧ g.access.writesWord (elementAddr 0x40 0) = true := by decide

theorem witness_PdivDividesTruncatingOrRaisesDivZero : (points 5 5 0 0 0).eng.sc = 0 ∧ (points 5 5 0 0 1).eng.sc ≠ 0 ∧
    (points 5 5 0 0 (-1)).eng.sc ≠ 0 := by decide

/-- V-PLT-7 after V-PLT-5. -/
theorem witness_PointOrderIsAStrictTotalOrder :
    pointLess 0xFFFFFFFF 0 0 0 = true ∧ pointLess 0 0 0 0xFFFFFFFF = true := by decide

theorem witness_PackThenUnpackTruncatesEachChannel : ∃ t u : State,
    exec .pack State.reset = .next t ∧ exec .unpack t = .next u := ⟨_, _, rfl, rfl⟩

theorem witness_RsubUndoesRadd :
    ∃ t, exec .radd (rects 2147483647 (-2147483648) 5 6 1 (-1) 7 7) = .next t := ⟨_, rfl⟩

/-- V-RINT-5 (touching, width 0), V-RINT-18 (height 0) and V-RINT-6 (the smallest non-empty result). -/
theorem witness_RintComputesTheIntersectionExactly :
    (min ((0 : Int) + 10) (10 + 5) - max 0 10 ≤ 0 ∨ min ((0 : Int) + 10) (0 + 5) - max 0 0 ≤ 0) ∧
    (min ((0 : Int) + 10) (0 + 10) - max 0 0 ≤ 0 ∨ min ((0 : Int) + 10) (10 + 10) - max 0 10 ≤ 0) ∧
    (0 < min ((0 : Int) + 10) (9 + 5) - max 0 9 ∧ 0 < min ((0 : Int) + 10) (9 + 5) - max 0 9) := by decide

/-- V-RINT-20, and an empty operand in each of the four ways. -/
theorem witness_RintIsIdempotentAndAbsorbing :
    (let s := rects (-2147483648) (-2147483648) 2147483647 2147483647 (-2147483648) (-2147483648) 2147483647 2147483647
     0 < s.eng.aW.toInt ∧ 0 < s.eng.aH.toInt ∧ s.eng.bX = s.eng.aX ∧ s.eng.bY = s.eng.aY ∧ s.eng.bW = s.eng.aW ∧
      s.eng.bH = s.eng.aH) ∧
    (rects 3 3 0 5 0 0 1 1).eng.aW.toInt ≤ 0 ∧ (rects 0 0 5 (-3) 0 0 5 5).eng.aH.toInt ≤ 0 ∧
    (rects 7 9 20 30 0 0 0 1).eng.bW.toInt ≤ 0 ∧ (rects 7 9 20 30 0 0 1 (-2147483648)).eng.bH.toInt ≤ 0 := by decide

theorem witness_RintCoversExactlyTheCommonPoints :
    ∃ t, exec .rint (rects 0 0 10 10 5 5 10 10) = .next t ∧ t.eng.t = true := exists_next (by decide)

theorem witness_EveryCommandEnds : ∀ i ∈ ([.pack, .unpack, .pxtst, .padd, .psub, .pmul, .pdiv, .plt, .radd, .rsub, .rint,
    .rtst] : List Instr), i ≠ .cia ∧ i ≠ .mcc := by decide

theorem witness_OnlyPdivByZeroRecordsAnError :
    ∃ t, exec .pdiv (points 7 (-7) 0 0 2) = .next t ∧ ¬(Instr.pdiv = .pdiv ∧ (points 7 (-7) 0 0 2).eng.sc = 0) :=
  ⟨_, rfl, by decide⟩

theorem witness_CommandWritesOnlyItsWriteSet :
    (∃ t, exec .cia rowsMachine = .next t ∧ (t.mem != rowsMachine.mem) = true) ∧
    Reg.qX ∉ commandWrites .cia ∧ commandWritesT .cia = false ∧
    ∀ j < rowsMachine.eng.cnt.toNat, (0x11 : Word) ≠ elementAddr rowsMachine.eng.dst j :=
  ⟨rowsMachine_cia, by decide⟩

theorem witness_ResultsDependOnTheReadSetOnly : ∃ s s' t t' : State, s ≠ s' ∧ Instr.pdiv ≠ .cia ∧ Instr.pdiv ≠ .mcc ∧
    (Instr.pdiv = .pdiv → s.eng.sc ≠ 0) ∧ (∀ r ∈ commandReads .pdiv, readReg s.eng r = readReg s'.eng r) ∧
    exec .pdiv s = .next t ∧ exec .pdiv s' = .next t' :=
  ⟨points 7 (-7) 1 2 2, points 7 (-7) 3 4 2, _, _, by decide, by decide, by decide, by decide, by decide, rfl, rfl⟩

/-- `rowsMachine` with other registers, another pixel, another backing and nothing in flight. -/
def rowsMachineElsewhere : State :=
  { machine { rowRegs 0xFFFFFFFF 0x10 2 with aX := 5, px := 1 }
      [(0x0, 0x0BBB), (0x10, 0x8001), (0x11, 0x7FFF), (0x50, 0x1234), (0xFFFFFFFF, 0x0AAA)] with
    backed := [⟨0x0, 1⟩, ⟨0x10, 2⟩, ⟨0xFFFFFFFF, 1⟩] }

/-- The first clause: only registers outside the read set differ. -/
theorem witness_RowCommandsDependOnTheirRowsOnly :
    (∀ r ∈ commandReads .cia, readReg rowsMachine.eng r = readReg { rowsMachine.eng with aX := 5, px := 1 } r) ∧
    ∃ t, exec .cia rowsMachine = .next t :=
  ⟨by decide, witness_CiaTwiceIsCiaOnce⟩

/-- The second clause: everything outside the rows differs. -/
theorem witness_RowCommandsDependOnTheirRowsOnly_elsewhere :
    let s := rowsMachine
    let s' := rowsMachineElsewhere
    (∀ r ∈ commandReads .cia, readReg s.eng r = readReg s'.eng r) ∧ (∀ f ∈ s'.inFlight, f ∈ s.inFlight) ∧
    (∀ j < s.eng.cnt.toNat,
      wordBacked s'.backed (elementAddr s.eng.dst j) = wordBacked s.backed (elementAddr s.eng.dst j) ∧
      readPixel s'.mem (elementAddr s.eng.dst j) = readPixel s.mem (elementAddr s.eng.dst j)) ∧
    (∀ j < s.eng.cnt.toNat,
      wordBacked s'.backed (elementAddr s.eng.src j) = wordBacked s.backed (elementAddr s.eng.src j) ∧
      readPixel s'.mem (elementAddr s.eng.src j) = readPixel s.mem (elementAddr s.eng.src j)) ∧
    s'.mem ≠ s.mem ∧ s'.backed ≠ s.backed ∧ ∃ t, exec .cia s = .next t :=
  ⟨by decide, by decide, by decide, by decide, by decide, by decide, witness_CiaTwiceIsCiaOnce⟩

theorem witness_HaltedEngineIgnoresCommandWrites : (machine haltedEngine).eng.err ≠ .noError ∧ Reg.ch ≠ .cmd := by decide

/-- A PACK written to a halted engine, and the halted engine's reset. -/
theorem witness_OnlyResetLeavesTheHaltedState :
    (∃ t, step { machine haltedEngine with script := [.write 0 0x00 0x10] } = .next t) ∧
    (∃ t, step { machine haltedEngine with script := [.reset 0] } = .next t) ∧
    (machine haltedEngine).engines[0]? = some haltedEngine ∧ haltedEngine.err ≠ .noError :=
  ⟨⟨_, rfl⟩, ⟨_, rfl⟩, by decide, by decide⟩

theorem witness_TruthFlagChangesByFourCommandsOnly :
    (∃ t, step { twoEngines with script := [.write 1 0x00 0x12] } = .next t) ∧
    (∃ t, step { twoEngines with script := [.write 0 0x03 7] } = .next t) ∧
    twoEngines.engines[1]? = some (rowRegs 0x1010 0x2008 1) := ⟨⟨_, rfl⟩, ⟨_, rfl⟩, by decide⟩

/-- The second of two engines, and a register of each class: read-write, PX, read-only. -/
theorem witness_RegisterWriteReadsBack : twoEngines.busy 1 = false ∧ (∃ s₁, twoEngines.focus 1 = some s₁) ∧
    Reg.ch ≠ .cmd ∧ Reg.px ≠ .cmd ∧ Reg.qH ≠ .cmd := ⟨by decide, ⟨_, rfl⟩, by decide⟩

theorem witness_RegisterReadChangesNothing : twoEngines.busy 1 = false ∧ ∃ s₁, twoEngines.focus 1 = some s₁ :=
  ⟨by decide, _, rfl⟩

/-- The first reserved number, and V-REG-4's. -/
theorem witness_ReservedNumbersReadZeroAndIgnoreWrites : 0x16 ≤ 0x16 ∧ 0x16 ≤ 0xFF ∧ regOfNumber 0x15 = some .qH := by
  decide

theorem witness_ResetZeroesOneEngineOnly :
    twoEngines.busy 1 = false ∧ (∃ s₁, twoEngines.focus 1 = some s₁) ∧ 0 ≠ 1 := ⟨by decide, ⟨_, rfl⟩, by decide⟩

theorem witness_StepRunsTheDecodedCommand :
    ({ twoEngines with script := [.write 1 0x00 0x3A] } : State).script = .write 1 0x00 0x3A :: [] ∧
    ({ twoEngines with script := [.write 1 0x00 0x3A] } : State).busy 1 = false ∧
    (∃ s₁, ({ twoEngines with script := [.write 1 0x00 0x3A] } : State).focus 1 = some s₁ ∧ s₁.eng.err = .noError) ∧
    decode 0x3A = .ok .rint ∧ Instr.rint.wf = true := ⟨rfl, by decide, ⟨_, rfl, rfl⟩, rfl, rfl⟩

theorem witness_PlacedCommandWordRunsNext : State.reset.eng.err = .noError ∧ decodeTableWord 32 0x10 = some .pack := by
  decide

theorem witness_IdleMachineKeepsItsState : rowsMachine.script = [] := rfl

/-- Memory, a halted engine, a CMD write in flight and a transaction to come. -/
theorem witness_StepKeepsTheInvariant : ∃ s t : State, s.Inv ∧ step s = .next t ∧ s.mem ≠ [] ∧ s.inFlight ≠ [] := by
  refine ⟨{ machine haltedEngine [(7, 9)] with inFlight := [⟨0, Access.empty⟩], script := [.endCmd 0] }, _,
    ⟨by decide, ?_, by decide, by decide⟩, rfl, by decide, by decide⟩
  intro e he
  have he : e = haltedEngine := by simpa [State.engines, machine, State.reset] using he
  subst he
  exact ⟨by decide, by decide, fun _ i => by cases i <;> decide, by decide⟩

/-- A step that leaves memory alone, one by the platform, one by CIA. -/
theorem witness_PixelMemoryChangesByRowCommandsOnly :
    (∃ t, step { twoEngines with script := [.write 0 0x03 7] } = .next t) ∧
    (∃ t, step { twoEngines with script := [.pmWrite 0 [7]] } = .next t) ∧
    ∃ t, step { twoEngines with script := [.write 0 0x00 0x20] } = .next t := by
  refine ⟨⟨_, rfl⟩, ?_, ?_⟩
  · obtain ⟨t, h, -⟩ := exists_next (o := step { twoEngines with script := [.pmWrite 0 [7]] })
      (p := fun t => t.mem != twoEngines.mem) (by decide)
    exact ⟨t, h⟩
  · obtain ⟨t, h, -⟩ := exists_next (o := step { twoEngines with script := [.write 0 0x00 0x20] })
      (p := fun t => t.mem != twoEngines.mem) (by decide)
    exact ⟨t, h⟩

theorem witness_EnginesShareNothingButPixelMemory :
    (∃ t, step { twoEngines with script := [.write 0 0x03 7] } = .next t) ∧
    eventEngine (.write 0 0x03 7) ≠ some 1 := ⟨⟨_, rfl⟩, by decide⟩

theorem witness_NonConflictingCommandsCommute : ∃ sj sk a ab : State,
    twoEngines.focus 0 = some sj ∧ twoEngines.focus 1 = some sk ∧
    (commandAccess 0x20 sj).conflicts (commandAccess 0x20 sk) = false ∧
    perform (.write 0 0x00 0x20) twoEngines = .next a ∧ perform (.write 1 0x00 0x20) a = .next ab := by
  obtain ⟨a, ha, p⟩ := exists_next (o := perform (.write 0 0x00 0x20) twoEngines)
    (p := fun a => nextThen (perform (.write 1 0x00 0x20) a) fun ab => ab.mem != twoEngines.mem) (by decide)
  obtain ⟨ab, hab, -⟩ := exists_next p
  exact ⟨_, _, a, ab, rfl, rfl, by decide, ha, hab⟩

theorem witness_OverlappingConflictingCommandsFault : ∃ sj sk a : State, (0 : Nat) ≠ 1 ∧
    racingEngines.busy 1 = false ∧ racingEngines.focus 0 = some sj ∧ racingEngines.focus 1 = some sk ∧
    (commandAccess 0x20 sj).conflicts (commandAccess 0x20 sk) = true ∧
    perform (.beginCmd 0 0x20) racingEngines = .next a := by
  obtain ⟨a, ha, -⟩ := exists_next (o := perform (.beginCmd 0 0x20) racingEngines) (p := fun a => a.inFlight != [])
    (by decide)
  exact ⟨_, _, a, by decide, by decide, rfl, rfl, by decide, ha⟩

theorem witness_WindowIsBusyUntilTheCommandWriteEnds : ∃ t, perform (.beginCmd 0 0x10) State.reset = .next t ∧
    eventEngine (.reset 0) = some 0 ∧ Event.reset 0 ≠ .endCmd 0 := ⟨_, rfl, by decide⟩

theorem witness_PlatformWriteIsReadBack : ([1, 2] : List Pixel).length ≤ 2 ^ 32 ∧ State.reset.inFlight = [] ∧
    ∀ i < ([1, 2] : List Pixel).length, wordBacked State.reset.backed (elementAddr 0xFFFFFFFF i) = true := by decide

/-- The last pixel word, whose bytes are the last two of the byte view. -/
theorem witness_ByteViewFollowsThePixelByteOrder : (0x1FFFFFFFE : BitVec 33).toNat = 2 * (0xFFFFFFFF : Word).toNat ∧
    (0x1FFFFFFFF : BitVec 33).toNat = 2 * (0xFFFFFFFF : Word).toNat + 1 := by decide

theorem witness_ChanLineWritesTheFourChannels : (Line.chan 255 0 255 255).wf = true := by decide

end Sys2Proof.Tests
end

section
/-! The register window: STATUS by its fields, a write and a read of one register, reserved numbers. -/

namespace Sys2Proof.Machine

theorem halted_iff (e : Engine) : e.halted = true ↔ e.err ≠ .noError := by simp [Engine.halted]

theorem halted_eq_false_iff (e : Engine) : e.halted = false ↔ e.err = .noError := by simp [Engine.halted]

/-- STATUS by its four fields (10_state.md R12). -/
theorem statusWord_fields (e : Engine) :
    (statusWord e).extractLsb' 0 1 = BitVec.ofBool e.t ∧ (statusWord e).extractLsb' 1 3 = 0 ∧
      (statusWord e).extractLsb' 4 4 = errCode e.err ∧ (statusWord e).extractLsb' 8 24 = 0 := by
  unfold statusWord
  generalize e.t = b
  generalize e.err = c
  cases b <;> cases c <;> decide

theorem errCode_ne_zero_iff (c : ErrCode) : errCode c ≠ 0 ↔ c ≠ .noError := by cases c <;> decide

/-- The registers a host write leaves as they are (10_state.md R12, R13, R16, R22). -/
def readOnlyRegs : List Reg := [.ecmd, .status, .uc, .qX, .qY, .qW, .qH]

theorem writeReg_readOnly (e : Engine) {r : Reg} (v : Word) (h : r ∈ readOnlyRegs) : writeReg e r v = e := by
  simp only [readOnlyRegs, List.mem_cons, List.not_mem_nil, or_false] at h
  rcases h with rfl | rfl | rfl | rfl | rfl | rfl | rfl <;> rfl

theorem setWidth_setWidth_eq_and (v : Word) : (v.setWidth 16).setWidth 32 = v &&& 0x0000FFFF := by
  apply BitVec.eq_of_toNat_eq
  have low := Nat.and_two_pow_sub_one_eq_mod v.toNat 16
  simp at low ⊢
  omega

/-- A register that is not read-only reads back what was written, PX its low 16 bits. -/
theorem readReg_writeReg_same (e : Engine) {r : Reg} (v : Word) (hc : r ≠ .cmd) (h : r ∉ readOnlyRegs) :
    readReg (writeReg e r v) r = if r = .px then v &&& 0x0000FFFF else v := by
  cases r <;> simp_all [readOnlyRegs, writeReg, readReg, setWidth_setWidth_eq_and]

/-- A host write of one register shows in no other. -/
theorem readReg_writeReg_other (e : Engine) {r r' : Reg} (v : Word) (h : r' ≠ r) :
    readReg (writeReg e r v) r' = readReg e r' := by
  cases r <;> cases r' <;> trivial

@[simp] theorem writeReg_t (e : Engine) (r : Reg) (v : Word) : (writeReg e r v).t = e.t := by cases r <;> rfl
@[simp] theorem writeReg_err (e : Engine) (r : Reg) (v : Word) : (writeReg e r v).err = e.err := by cases r <;> rfl
@[simp] theorem writeReg_ecmd (e : Engine) (r : Reg) (v : Word) : (writeReg e r v).ecmd = e.ecmd := by cases r <;> rfl
@[simp] theorem writeReg_uc (e : Engine) (r : Reg) (v : Word) : (writeReg e r v).uc = e.uc := by cases r <;> rfl

/-- The numbers from 0x16 on are reserved (10_state.md R23). -/
theorem regOfNumber_reserved {n : Nat} (h : 0x16 ≤ n) : regOfNumber n = none := by
  cases hr : regOfNumber n with
  | none => rfl
  | some r =>
    have := regNumber_lt r
    rw [regNumber_of_regOfNumber hr] at this
    omega

theorem readNumber_reserved (e : Engine) {n : Nat} (h : 0x16 ≤ n) : readNumber e n = 0 := by
  simp [readNumber, regOfNumber_reserved h]

theorem readReg_atReset (r : Reg) : readReg Engine.atReset r = 0 := by cases r <;> rfl

theorem readNumber_atReset (n : Nat) : readNumber Engine.atReset n = 0 := by
  unfold readNumber
  split
  · exact readReg_atReset _
  · rfl

theorem registerWrite_regNumber (s : State) {r : Reg} (v : Word) (h : r ≠ .cmd) :
    registerWrite (regNumber r) v s = .next (s.withEng (writeReg s.eng r v)) := by
  simp only [registerWrite, regOfNumber_regNumber]

theorem registerWrite_reserved (s : State) {n : Nat} (v : Word) (h : 0x16 ≤ n) : registerWrite n v s = .next s := by
  simp [registerWrite, regOfNumber_reserved h]

end Sys2Proof.Machine
end

section
/-! The decoder and the encoder are inverse to each other (30_encoding.md R62). -/

namespace Sys2Proof

theorem decode_encode (i : Instr) : decode (encode i) = .ok i := by cases i <;> rfl

/-- A word without reserved bits is its opcode. -/
theorem toNat_opcField {w : Word} (h : rsvField w = 0) : (opcField w).toNat = w.toNat := by
  have h := congrArg BitVec.toNat h
  simp [rsvField, BitVec.extractLsb'_toNat, Nat.shiftRight_eq_div_pow] at h
  simp [opcField, BitVec.extractLsb'_toNat]
  omega

theorem eq_encode_of_decode {w : Word} {i : Instr} (h : decode w = .ok i) : w = encode i := by
  unfold decode at h
  split at h
  · rename_i hrsv
    split at h
    · rename_i j hop
      cases h
      apply BitVec.eq_of_toNat_eq
      rw [← toNat_opcField hrsv]
      unfold decodeOpcode at hop
      split at hop <;> cases hop <;> assumption
    · cases h
  · cases h

theorem encode_ne_of_decode_error {w : Word} {r : Reject} (h : decode w = .error r) (i : Instr) : encode i ≠ w := by
  rintro rfl
  rw [decode_encode] at h
  cases h

theorem decode_of_decodeTableWord {nbits w : Nat} {i : Instr} (h : decodeTableWord nbits w = some i) :
    decode (tableWord nbits w) = .ok i := by
  unfold decodeTableWord at h
  split at h
  · cases hd : decode (tableWord nbits w) with
    | ok j => rw [hd] at h; cases h; rfl
    | error r => rw [hd] at h; cases h
  · cases h

end Sys2Proof
end

section
/-! The registers a command leaves behind, as a function of the registers it finds; what it reads, writes and keeps
(10_state.md R24), and the invariant of one engine. -/

namespace Sys2Proof.Machine

/-- The registers of the addressed engine after a command that completes. -/
def engineAfter (i : Instr) (e : Engine) : Engine :=
  match i with
  | .pack => { e with px := packPixel e.ch }
  | .unpack => { e with uc := unpackPixel e.px }
  | .pxtst => setT e (pixelTruth e.px)
  | .cia | .mcc => e
  | .padd => setQPoint e ((pointA e).add (pointB e))
  | .psub => setQPoint e ((pointA e).sub (pointB e))
  | .pmul => setQPoint e ((pointA e).scale (scalar e))
  | .pdiv =>
    if scalar e = 0 then { e with err := .divZero, ecmd := encode .pdiv }
    else setQPoint e ((pointA e).divide (scalar e))
  | .plt => setT e (pointLess e.aX e.aY e.bX e.bY)
  | .radd => setQRect e ((rectA e).moveTo ((pointA e).add (pointB e)))
  | .rsub => setQRect e ((rectA e).moveTo ((pointA e).sub (pointB e)))
  | .rint =>
    setT (setQRect e ((rectA e).intersect (rectB e))) (rectTruth ((rectA e).intersect (rectB e)))
  | .rtst => setT e (rectTruth (rectA e))

/-- Every command but the row commands completes, and does to the registers what `engineAfter` says. -/
theorem exec_eq_engineAfter {i : Instr} (s : State) (hc : i ≠ .cia) (hm : i ≠ .mcc) :
    exec i s = .next (s.withEng (engineAfter i s.eng)) := by
  cases i
  case cia => exact absurd rfl hc
  case mcc => exact absurd rfl hm
  case pdiv =>
    simp only [exec, execPdiv, engineAfter]
    split <;> rfl
  all_goals rfl

theorem exec_next_eng {i : Instr} {s t : State} (h : exec i s = .next t) : t.eng = engineAfter i s.eng := by
  obtain ⟨rfl, -, -, rfl⟩ | ⟨rfl, -, rfl⟩ | ⟨hc, hm, -⟩ := exec_next_cases h
  · rfl
  · rfl
  · rw [exec_eq_engineAfter s hc hm] at h
    cases h
    rfl

/-! ### Frame: what each register update shows in the window -/

theorem readReg_setT (e : Engine) (b : Bool) {r : Reg} (h : r ≠ .status) : readReg (setT e b) r = readReg e r := by
  cases r <;> trivial

theorem readReg_setQPoint (e : Engine) (p : Point) {r : Reg} (h : r ∉ [Reg.qX, .qY]) :
    readReg (setQPoint e p) r = readReg e r := by
  cases r <;> simp_all [readReg, statusWord]

theorem readReg_setQRect (e : Engine) (q : Rect) {r : Reg} (h : r ∉ [Reg.qX, .qY, .qW, .qH]) :
    readReg (setQRect e q) r = readReg e r := by
  cases r <;> simp_all [readReg, statusWord]

/-- A command changes, of the registers other than STATUS and ECMD, those of its write set only (10_state.md R24). -/
theorem readReg_engineAfter (i : Instr) (e : Engine) {r : Reg} (hs : r ≠ .status) (he : r ≠ .ecmd)
    (hw : r ∉ commandWrites i) : readReg (engineAfter i e) r = readReg e r := by
  cases i
  case pack => cases r <;> simp_all [engineAfter, readReg, commandWrites]
  case unpack => cases r <;> simp_all [engineAfter, readReg, commandWrites]
  case pdiv =>
    simp only [engineAfter]
    split
    · cases r <;> trivial
    · exact readReg_setQPoint _ _ hw
  case cia | mcc => rfl
  case padd | psub | pmul => exact readReg_setQPoint _ _ hw
  case radd | rsub => exact readReg_setQRect _ _ hw
  case rint => exact (readReg_setT _ _ hs).trans (readReg_setQRect _ _ hw)
  case pxtst | plt | rtst => exact readReg_setT _ _ hs

/-- T is written by four commands only (10_state.md R26). -/
theorem engineAfter_t {i : Instr} (e : Engine) (h : commandWritesT i = false) : (engineAfter i e).t = e.t := by
  cases i
  case pxtst | plt | rint | rtst => cases h
  case pdiv =>
    simp only [engineAfter]
    split <;> rfl
  all_goals rfl

/-! ### Dependence: what a command writes is decided by what it reads -/

/-- PX is decided by the word a read of it returns. -/
theorem px_congr {e e' : Engine} (h : readReg e .px = readReg e' .px) : e.px = e'.px := by
  have := congrArg (BitVec.setWidth 16) h
  simpa [readReg] using this

/-- Two engines that agree on the registers a command reads get the same written registers and the same T, where PDIV
does not divide by 0 (10_state.md R24). -/
theorem engineAfter_congr {i : Instr} {e e' : Engine} (hsc : i = .pdiv → e.sc ≠ 0)
    (h : ∀ r ∈ commandReads i, readReg e r = readReg e' r) :
    (∀ r ∈ commandWrites i, readReg (engineAfter i e) r = readReg (engineAfter i e') r) ∧
      (commandWritesT i = true → (engineAfter i e).t = (engineAfter i e').t) := by
  cases i
  case unpack | pxtst =>
    have px : e.px = e'.px := px_congr (h .px (by decide))
    simp [commandWrites, commandWritesT, engineAfter, readReg, px]
  case pdiv =>
    have sc : e.sc = e'.sc := h .sc (by decide)
    have nonzero : scalar e' ≠ 0 := fun h0 => hsc rfl (sc.trans ((toInt_eq_zero_iff _).1 h0))
    simp_all [commandReads, commandWrites, commandWritesT, readReg, engineAfter, pointA, scalar]
  case rtst =>
    have width : e.aW = e'.aW := h .aW (by decide)
    have height : e.aH = e'.aH := h .aH (by decide)
    simp only [commandWrites, commandWritesT, engineAfter, setT_t, rectTruth, rectA, width, height]
    exact ⟨nofun, fun _ => rfl⟩
  all_goals
    simp_all [commandReads, commandWrites, commandWritesT, readReg, engineAfter, pointA, pointB, rectA, rectB, scalar]

/-! ### The invariant of one engine -/

theorem Engine.Inv.congr {e e' : Engine} (h : e.Inv) (huc : e'.uc = e.uc) (herr : e'.err = e.err)
    (hecmd : e'.ecmd = e.ecmd) : e'.Inv := by
  obtain ⟨uc, none, illegal, zero⟩ := h
  exact ⟨huc ▸ uc, by rwa [herr, hecmd], by rwa [herr, hecmd], by rwa [herr, hecmd]⟩

theorem inv_atReset : Engine.atReset.Inv := ⟨by decide, fun _ => rfl, nofun, nofun⟩

theorem inv_writeReg {e : Engine} (h : e.Inv) (r : Reg) (v : Word) : (writeReg e r v).Inv :=
  h.congr (writeReg_uc e r v) (writeReg_err e r v) (writeReg_ecmd e r v)

theorem channelField_le (c : Channel) (p : Pixel) : (channelField c p).toNat ≤ (channelMask c >>> c.shift).toNat := by
  have h : (p.toNat &&& (channelMask c).toNat) >>> c.shift ≤ (channelMask c).toNat >>> c.shift := by
    simp only [Nat.shiftRight_eq_div_pow]
    exact Nat.div_le_div_right Nat.and_le_right
  have lt := (channelMask c >>> c.shift).isLt
  simp only [BitVec.toNat_ushiftRight] at lt
  simp only [channelField, BitVec.toNat_setWidth, BitVec.toNat_ushiftRight, BitVec.toNat_and]
  rw [Nat.mod_eq_of_lt (by omega)]
  exact h

/-- A value no greater than its field's largest, put at the field's place, sets no bit of UC outside the fields. -/
theorem shiftLeft_outside_ucFields {f : Word} {n bound : Nat} (hf : f.toNat ≤ bound)
    (fits : ∀ k ≤ bound, (BitVec.ofNat 32 k <<< n) &&& ~~~ucFieldBits = 0) : (f <<< n) &&& ~~~ucFieldBits = 0 := by
  simpa using fits f.toNat hf

/-- UNPACK writes no bit outside the fields of UC (10_state.md R16). -/
theorem unpackPixel_ucFields (p : Pixel) : unpackPixel p &&& ~~~ucFieldBits = 0 := by
  have alpha := shiftLeft_outside_ucFields (n := 24) (channelField_le Config.argb1555.alpha p) (by decide)
  have red := shiftLeft_outside_ucFields (n := 16) (channelField_le Config.argb1555.red p) (by decide)
  have green := shiftLeft_outside_ucFields (n := 8) (channelField_le Config.argb1555.green p) (by decide)
  have blue := shiftLeft_outside_ucFields (n := 0) (channelField_le Config.argb1555.blue p) (by decide)
  rw [BitVec.shiftLeft_zero] at blue
  simp only [unpackPixel, BitVec.and_or_distrib_right, alpha, red, green, blue]
  rfl

theorem inv_engineAfter {e : Engine} (h : e.Inv) (i : Instr) : (engineAfter i e).Inv := by
  cases i
  case unpack => exact ⟨unpackPixel_ucFields _, h.ecmdWhenNoError, h.ecmdWhenIllegal, h.ecmdWhenDivZero⟩
  case pdiv =>
    simp only [engineAfter]
    split
    · exact ⟨h.ucFields, nofun, nofun, fun _ => rfl⟩
    · exact h.congr rfl rfl rfl
  all_goals exact h.congr rfl rfl rfl

end Sys2Proof.Machine
end

section
/-! What a transaction and a step can end in, said once, and what follows of the engines, of the CMD writes in flight and
of pixel memory. -/

namespace Sys2Proof.Machine

theorem onWindow_free {s s₁ : State} {k : Nat} (action : State → Result) (hb : s.busy k = false)
    (hf : s.focus k = some s₁) : onWindow k s action = action s₁ := by simp [onWindow, hb, hf]

theorem onWindow_busy {s : State} {k : Nat} (action : State → Result) (hb : s.busy k = true) :
    onWindow k s action = .refused .windowBusy := by simp [onWindow, hb]

/-- The number of CMD is 0x00 (10_state.md R10). -/
theorem number_of_cmd {n : Nat} (h : regOfNumber n = some .cmd) : n = 0x00 := (regNumber_of_regOfNumber h).symm

/-- A transaction that ends in a next state, by what it is and what it finds: one constructor per way to end. -/
inductive Transition (s : State) : Event → State → Prop where
  | writeReg {k n : Nat} {v : Word} {s₁ : State} {r : Reg} (free : s.busy k = false) (window : s.focus k = some s₁)
      (number : regOfNumber n = some r) (notCmd : r ≠ .cmd) :
      Transition s (.write k n v) (s₁.withEng (writeReg s₁.eng r v))
  | writeReserved {k n : Nat} {v : Word} {s₁ : State} (free : s.busy k = false) (window : s.focus k = some s₁)
      (number : regOfNumber n = none) : Transition s (.write k n v) s₁
  | writeCmd {k : Nat} {w : Word} {s₁ t : State} (free : s.busy k = false) (window : s.focus k = some s₁)
      (run : commandWrite w s₁ = .next t) : Transition s (.write k 0x00 w) t
  | read {k n : Nat} {s₁ : State} (free : s.busy k = false) (window : s.focus k = some s₁) :
      Transition s (.read k n) { s₁ with responses := s₁.responses ++ [.reg s₁.index n (readNumber s₁.eng n)] }
  | reset {k : Nat} {s₁ : State} (free : s.busy k = false) (window : s.focus k = some s₁) :
      Transition s (.reset k) (resetEngine s₁)
  | beginCmd {k : Nat} {w : Word} {s₁ u : State} (free : s.busy k = false) (window : s.focus k = some s₁)
      (run : commandWrite w s₁ = .next u) :
      Transition s (.beginCmd k w) { u with inFlight := ⟨k, commandAccess w s₁⟩ :: u.inFlight }
  | endCmd {k : Nat} (busy : s.busy k = true) :
      Transition s (.endCmd k) { s with inFlight := s.inFlight.filter fun f => f.engine != k }
  | pmWrite {addr : Word} {values : List Pixel} (defined : accessFault s ⟨[], [⟨addr, values.length⟩]⟩ = none) :
      Transition s (.pmWrite addr values) { s with mem := writeRow s.mem addr values }
  | pmRead {addr : Word} (defined : accessFault s ⟨[⟨addr, 1⟩], []⟩ = none) :
      Transition s (.pmRead addr) { s with responses := s.responses ++ [.pixel addr (readPixel s.mem addr)] }

theorem transition_of_perform {ev : Event} {s t : State} (h : perform ev s = .next t) : Transition s ev t := by
  cases ev with
  | write k n v =>
    obtain ⟨free, s₁, window, h⟩ := onWindow_next h
    obtain ⟨number, run⟩ | ⟨r, notCmd, number, rfl⟩ | ⟨number, rfl⟩ := registerWrite_next_cases h
    · obtain rfl := number_of_cmd number
      exact .writeCmd free window run
    · exact .writeReg free window number notCmd
    · exact .writeReserved free window number
  | read k n =>
    obtain ⟨free, s₁, window, h⟩ := onWindow_next h
    cases h
    exact .read free window
  | reset k =>
    obtain ⟨free, s₁, window, h⟩ := onWindow_next h
    cases h
    exact .reset free window
  | beginCmd k w =>
    obtain ⟨free, s₁, window, h⟩ := onWindow_next h
    obtain ⟨u, run, rfl⟩ := commandBegin_next h
    rw [(focus_some window).1]
    exact .beginCmd free window run
  | endCmd k =>
    obtain ⟨busy, rfl⟩ := commandEnd_next h
    exact .endCmd busy
  | pmWrite addr values =>
    obtain ⟨defined, rfl⟩ := platformWrite_next h
    exact .pmWrite defined
  | pmRead addr =>
    obtain ⟨defined, rfl⟩ := platformRead_next h
    exact .pmRead defined

/-- A step with nothing to do keeps the state; any other is the next transaction, taken off the script. -/
theorem step_next_cases {s t : State} (h : step s = .next t) :
    (s.script = [] ∧ t = s) ∨ ∃ ev rest, s.script = ev :: rest ∧ Transition { s with script := rest } ev t := by
  cases hs : s.script with
  | nil =>
    rw [step_empty hs] at h
    cases h
    exact .inl ⟨rfl, rfl⟩
  | cons ev rest =>
    rw [step_cons hs] at h
    exact .inr ⟨ev, rest, rfl, transition_of_perform h⟩

/-! ### The engines -/

/-- What a transaction can do to engine `k`. -/
inductive EngineMove (k : Nat) : Event → Engine → Engine → Prop where
  | keep (ev : Event) (e : Engine) : EngineMove k ev e e
  | register {n : Nat} {r : Reg} (v : Word) (e : Engine) (number : regOfNumber n = some r) (notCmd : r ≠ .cmd) :
      EngineMove k (.write k n v) e (writeReg e r v)
  | reset (e : Engine) : EngineMove k (.reset k) e Engine.atReset
  | command {ev : Event} {w : Word} {s₁ t : State} (cmd : ev = .write k 0x00 w ∨ ev = .beginCmd k w)
      (run : commandWrite w s₁ = .next t) : EngineMove k ev s₁.eng t.eng

/-- A transaction on window `k` that keeps the engines around the addressed one moves engine `k` only. -/
theorem engineMove_of_window {s s₁ t : State} {k j : Nat} {e : Engine} {ev : Event} (window : s.focus k = some s₁)
    (before : t.before = s₁.before) (after : t.after = s₁.after) (move : EngineMove k ev s₁.eng t.eng)
    (he : s.engines[j]? = some e) : ∃ e', t.engines[j]? = some e' ∧ EngineMove j ev e e' := by
  obtain ⟨index, engines, eng, -⟩ := focus_some window
  by_cases hjk : j = k
  · subst hjk
    rw [eng] at he
    cases he
    refine ⟨t.eng, ?_, move⟩
    have : t.index = j := by rw [← index, State.index, State.index, before]
    rw [← this, engines_getElem?_index]
  · refine ⟨e, ?_, .keep ev e⟩
    rw [engines_other_of_env before after (by rwa [index]), engines, he]

/-- Every engine is still there after a transaction, and moves as `EngineMove` says. -/
theorem Transition.engineMove {s t : State} {ev : Event} (h : Transition s ev t) {j : Nat} {e : Engine}
    (he : s.engines[j]? = some e) : ∃ e', t.engines[j]? = some e' ∧ EngineMove j ev e e' := by
  cases h with
  | writeReg _ window number notCmd =>
    exact engineMove_of_window window rfl rfl (.register _ _ number notCmd) he
  | writeReserved _ window => exact engineMove_of_window window rfl rfl (.keep _ _) he
  | writeCmd _ window run =>
    obtain ⟨before, after, -⟩ := commandWrite_next_env run
    exact engineMove_of_window window before after (.command (.inl rfl) run) he
  | read _ window => exact engineMove_of_window window rfl rfl (.keep _ _) he
  | reset _ window => exact engineMove_of_window window rfl rfl (.reset _) he
  | @beginCmd _ _ _ u _ window run =>
    obtain ⟨before, after, -⟩ := commandWrite_next_env run
    exact engineMove_of_window window before after (.command (t := u) (.inr rfl) run) he
  | endCmd | pmWrite | pmRead => exact ⟨e, he, .keep _ _⟩

/-- A transaction neither adds nor removes an engine. -/
theorem Transition.engines_length {s t : State} {ev : Event} (h : Transition s ev t) :
    t.engines.length = s.engines.length := by
  have of_window {s₁ : State} {k : Nat} (window : s.focus k = some s₁) (before : t.before = s₁.before)
      (after : t.after = s₁.after) : t.engines.length = s.engines.length := by
    rw [engines_length_of_env before after, (focus_some window).2.1]
  cases h with
  | writeReg _ window | writeReserved _ window | read _ window | reset _ window => exact of_window window rfl rfl
  | writeCmd _ window run | beginCmd _ window run =>
    obtain ⟨before, after, -⟩ := commandWrite_next_env run
    exact of_window window before after
  | endCmd | pmWrite | pmRead => rfl

/-! ### The CMD writes in flight and pixel memory -/

/-- What a transaction can do to the list of CMD writes in flight: nothing, begin one on a free window of the system, end
those of one window. -/
theorem Transition.inFlight_cases {s t : State} {ev : Event} (h : Transition s ev t) :
    t.inFlight = s.inFlight ∨
    (∃ k acc, s.busy k = false ∧ k < s.engines.length ∧ t.inFlight = ⟨k, acc⟩ :: s.inFlight) ∨
    ∃ k, t.inFlight = s.inFlight.filter fun f => f.engine != k := by
  cases h with
  | writeReg _ window | writeReserved _ window | read _ window | reset _ window =>
    obtain ⟨-, -, -, -, -, inFlight, -⟩ := focus_some window
    exact .inl inFlight
  | writeCmd _ window run =>
    obtain ⟨-, -, -, -, -, inFlight, -⟩ := focus_some window
    obtain ⟨-, -, -, inFlight', -⟩ := commandWrite_next_env run
    exact .inl (inFlight'.trans inFlight)
  | beginCmd free window run =>
    obtain ⟨index, engines, -, -, -, inFlight, -⟩ := focus_some window
    obtain ⟨-, -, -, inFlight', -⟩ := commandWrite_next_env run
    refine .inr (.inl ⟨_, _, free, ?_, by rw [inFlight', inFlight]⟩)
    rw [← index, ← engines]
    exact index_lt_engines _
  | endCmd => exact .inr (.inr ⟨_, rfl⟩)
  | pmWrite | pmRead => exact .inl rfl

theorem commandWrite_next_memWf {w : Word} {s t : State} (h : commandWrite w s = .next t) (wf : Memory.wf s.mem) :
    Memory.wf t.mem := by
  obtain ⟨-, rfl⟩ | ⟨-, -, rfl⟩ | ⟨-, i, -, run⟩ := commandWrite_next_cases h
  · exact wf
  · exact wf
  · exact exec_next_memWf run wf

theorem Transition.memWf {s t : State} {ev : Event} (h : Transition s ev t) (wf : Memory.wf s.mem) :
    Memory.wf t.mem := by
  cases h with
  | writeReg _ window | writeReserved _ window | read _ window | reset _ window =>
    obtain ⟨-, -, -, mem, -⟩ := focus_some window
    exact mem ▸ wf
  | writeCmd _ window run | beginCmd _ window run =>
    obtain ⟨-, -, -, mem, -⟩ := focus_some window
    have := commandWrite_next_memWf run (mem ▸ wf)
    exact this
  | endCmd | pmRead => exact wf
  | pmWrite => exact writeRow_wf _ _ _ wf

end Sys2Proof.Machine
end

section
/-! What every step keeps: T but by four commands (10_state.md R26), and the invariant of the machine. -/

namespace Sys2Proof.Machine

/-- A CMD write that is not one of the four commands that write T keeps T. -/
theorem commandWrite_next_t {w : Word} {s t : State} (h : commandWrite w s = .next t) :
    w ∈ ([0x12, 0x34, 0x3A, 0x3B] : List Word) ∨ t.eng.t = s.eng.t := by
  obtain ⟨-, rfl⟩ | ⟨-, -, rfl⟩ | ⟨-, i, hd, run⟩ := commandWrite_next_cases h
  · exact .inr rfl
  · exact .inr rfl
  · rw [exec_next_eng run, eq_encode_of_decode hd]
    cases hT : commandWritesT i with
    | false => exact .inr (engineAfter_t s.eng hT)
    | true => exact .inl (by cases i <;> revert hT <;> decide)

theorem inv_commandWrite {w : Word} {s t : State} (h : commandWrite w s = .next t) (inv : s.eng.Inv) : t.eng.Inv := by
  obtain ⟨-, rfl⟩ | ⟨-, ⟨r, hd⟩, rfl⟩ | ⟨-, i, -, run⟩ := commandWrite_next_cases h
  · exact inv
  · exact ⟨inv.ucFields, nofun, fun _ => encode_ne_of_decode_error hd, nofun⟩
  · rw [exec_next_eng run]
    exact inv_engineAfter inv i

theorem EngineMove.inv {k : Nat} {ev : Event} {e e' : Engine} (h : EngineMove k ev e e') (inv : e.Inv) : e'.Inv := by
  cases h with
  | keep => exact inv
  | register v => exact inv_writeReg inv _ v
  | reset => exact inv_atReset
  | command cmd run => exact inv_commandWrite run inv

/-- A free window has no CMD write in flight. -/
theorem engine_notMem_of_free {s : State} {k : Nat} (h : s.busy k = false) : k ∉ s.inFlight.map InFlight.engine := by
  simpa [State.busy] using h

theorem Transition.inv {s t : State} {ev : Event} (h : Transition s ev t) (inv : s.Inv) : t.Inv := by
  obtain ⟨memWf, engines, exist, once⟩ := inv
  refine ⟨h.memWf memWf, fun e' he' => ?_, ?_, ?_⟩
  · obtain ⟨j, he'⟩ := List.mem_iff_getElem?.1 he'
    have hj : j < s.engines.length := h.engines_length ▸ (List.getElem?_eq_some_iff.1 he').1
    obtain ⟨e'', he'', move⟩ := h.engineMove (List.getElem?_eq_getElem hj)
    rw [he'] at he''
    cases he''
    exact move.inv (engines _ (List.getElem_mem hj))
  · rw [h.engines_length]
    obtain same | ⟨k, acc, -, hk, new⟩ | ⟨k, ended⟩ := h.inFlight_cases
    · rwa [same]
    · rw [new, List.forall_mem_cons]
      exact ⟨hk, exist⟩
    · rw [ended]
      exact fun f hf => exist f (List.mem_of_mem_filter hf)
  · obtain same | ⟨k, acc, free, -, new⟩ | ⟨k, ended⟩ := h.inFlight_cases
    · rwa [same]
    · rw [new, List.map_cons, List.nodup_cons]
      exact ⟨engine_notMem_of_free free, once⟩
    · rw [ended]
      exact once.sublist (List.filter_sublist.map _)

/-- The transactions still to come are no part of the invariant. -/
theorem State.Inv.script {s : State} (inv : s.Inv) (rest : List Event) : State.Inv { s with script := rest } :=
  ⟨inv.memWf, inv.engines, inv.inFlightExist, inv.inFlightOnce⟩

/-- Settles O39: an engine moves by a register write or a reset, which name themselves, or by a CMD write, of which four
commands write T. -/
theorem truthFlagChangesByFourCommandsOnly : Obligations.TruthFlagChangesByFourCommandsOnly := by
  intro s t k e h he
  obtain ⟨-, rfl⟩ | ⟨ev, rest, hs, tr⟩ := step_next_cases h
  · exact .inr (.inr ⟨e, he, rfl⟩)
  · obtain ⟨e', he', move⟩ := tr.engineMove he
    cases move with
    | keep => exact .inr (.inr ⟨e, he', rfl⟩)
    | register v => exact .inr (.inr ⟨_, he', writeReg_t e _ v⟩)
    | reset => exact .inl ⟨rest, hs⟩
    | @command _ w _ _ cmd run =>
      obtain hw | hT := commandWrite_next_t run
      · refine .inr (.inl ⟨rest, w, hw, ?_⟩)
        obtain rfl | rfl := cmd
        · exact .inl hs
        · exact .inr hs
      · exact .inr (.inr ⟨_, he', hT⟩)

/-- Settles O50: a transaction keeps each clause of the invariant, and taking it off the script touches none. -/
theorem stepKeepsTheInvariant : Obligations.StepKeepsTheInvariant := by
  intro s t inv h
  obtain ⟨-, rfl⟩ | ⟨ev, rest, -, tr⟩ := step_next_cases h
  · exact inv
  · exact tr.inv (inv.script rest)

/-- Settles O51: memory and the list in flight are empty, and the one engine is at its reset values. -/
theorem resetMeetsTheInvariant : Obligations.ResetMeetsTheInvariant := by
  refine ⟨by decide, fun e he => ?_, by decide, by decide⟩
  obtain rfl : e = Engine.atReset := by simpa [State.engines, State.reset] using he
  exact inv_atReset

end Sys2Proof.Machine
end

section
/-! Commands: the frame, the read set, the rows (10_state.md R24). -/

namespace Sys2Proof.Machine

/-- A command writes pixel memory inside the row at DST only (20_memory.md R41). -/
theorem exec_next_outside_row {i : Instr} {s t : State} (h : exec i s = .next t) {a : Word}
    (ha : ∀ j < s.eng.cnt.toNat, a ≠ elementAddr s.eng.dst j) : readPixel t.mem a = readPixel s.mem a := by
  obtain ⟨-, -, -, rfl⟩ | ⟨-, -, rfl⟩ | ⟨-, -, e, rfl⟩ := exec_next_cases h
  · exact readPixel_ciaRow_outside _ _ _ _ _ ha
  · exact readPixel_mccRow_outside _ _ _ _ ha
  · rfl

/-- Settles O34: the registers are those `engineAfter` gives, and memory changes in the row at DST only. -/
theorem commandWritesOnlyItsWriteSet : Obligations.CommandWritesOnlyItsWriteSet := by
  intro i s t h
  refine ⟨fun r hs he hw => ?_, fun hT => ?_, ?_, fun hc hm => ?_, fun a => exec_next_outside_row h⟩
  · rw [exec_next_eng h, readReg_engineAfter i s.eng hs he hw]
  · rw [exec_next_eng h, engineAfter_t s.eng hT]
  · obtain ⟨-, -, -, rfl⟩ | ⟨-, -, rfl⟩ | ⟨-, -, e, rfl⟩ := exec_next_cases h <;> rfl
  · rw [exec_eq_engineAfter s hc hm] at h
    cases h
    rfl

/-- Settles O35, by `engineAfter_congr` between the two states. -/
theorem resultsDependOnTheReadSetOnly : Obligations.ResultsDependOnTheReadSetOnly := by
  intro i s s' t t' _ _ hsc agree h h'
  rw [exec_next_eng h, exec_next_eng h']
  exact engineAfter_congr hsc agree

/-! ### The row commands -/

theorem accessFault_congr {s s' : State} (acc : Access) (backed : s'.backed = s.backed)
    (inFlight : s'.inFlight = s.inFlight) : accessFault s' acc = accessFault s acc := by
  simp [accessFault, racesInFlight, backed, inFlight]

/-- An access that is defined stays so where its words are as much backed and no further command is in flight. -/
theorem accessFault_none_of_words {s s' : State} {acc : Access} (inFlight : ∀ f ∈ s'.inFlight, f ∈ s.inFlight)
    (backed : ∀ a, acc.readsWord a = true ∨ acc.writesWord a = true → wordBacked s'.backed a = wordBacked s.backed a)
    (h : accessFault s acc = none) : accessFault s' acc = none := by
  rw [accessFault_none_words] at h ⊢
  obtain ⟨allBacked, noRace⟩ := h
  exact ⟨fun a ha => (backed a ha).trans (allBacked a ha), fun f hf => noRace f (inFlight f hf)⟩

theorem ciaAccess_congr {e e' : Engine} (dst : e'.dst = e.dst) (src : e'.src = e.src) (cnt : e'.cnt = e.cnt) :
    ciaAccess e' = ciaAccess e := by simp [ciaAccess, dstRow, srcRow, dst, src, cnt]

theorem mccAccess_congr {e e' : Engine} (dst : e'.dst = e.dst) (cnt : e'.cnt = e.cnt) :
    mccAccess e' = mccAccess e := by simp [mccAccess, dstRow, dst, cnt]

/-- A word of CIA's access set is one of its destination or of its source row. -/
theorem ciaAccess_words {e : Engine} {a : Word}
    (h : (ciaAccess e).readsWord a = true ∨ (ciaAccess e).writesWord a = true) :
    (∃ i < e.cnt.toNat, a = elementAddr e.dst i) ∨ ∃ i < e.cnt.toNat, a = elementAddr e.src i := by
  rwa [ciaAccess_readsWord, ciaAccess_writesWord, or_assoc, or_self, or_comm] at h

/-- A word of MCC's access set is one of its row. -/
theorem mccAccess_words {e : Engine} {a : Word}
    (h : (mccAccess e).readsWord a = true ∨ (mccAccess e).writesWord a = true) :
    ∃ i < e.cnt.toNat, a = elementAddr e.dst i := by
  rwa [mccAccess_readsWord, mccAccess_writesWord, or_self] at h

/-- A CIA that completes, completes with any engine of the same DST, SRC and CNT where its access is defined. -/
theorem exec_cia_of_regs {s s' t : State} (h : exec .cia s = .next t)
    (regs : ∀ r ∈ commandReads .cia, readReg s.eng r = readReg s'.eng r)
    (defined : accessFault s (ciaAccess s.eng) = none → accessFault s' (ciaAccess s.eng) = none) :
    exec .cia s' = .next { s' with mem := ciaRow s'.mem s.eng.dst s.eng.src s.eng.cnt.toNat } := by
  have dst : s'.eng.dst = s.eng.dst := (regs .dst (by decide)).symm
  have src : s'.eng.src = s.eng.src := (regs .src (by decide)).symm
  have cnt : s'.eng.cnt = s.eng.cnt := (regs .cnt (by decide)).symm
  obtain ⟨rows, fault, -⟩ := (exec_cia_next_iff s t).1 h
  rw [exec_cia_next_iff, ciaAccess_congr dst src cnt, dst, src, cnt]
  exact ⟨by simpa only [dstRow, srcRow, dst, src, cnt] using rows, defined fault, rfl⟩

/-- An MCC that completes, completes with any engine of the same DST and CNT where its access is defined. -/
theorem exec_mcc_of_regs {s s' t : State} (h : exec .mcc s = .next t)
    (regs : ∀ r ∈ commandReads .mcc, readReg s.eng r = readReg s'.eng r)
    (defined : accessFault s (mccAccess s.eng) = none → accessFault s' (mccAccess s.eng) = none) :
    exec .mcc s' = .next { s' with mem := mccRow s'.mem s.eng.dst s.eng.cnt.toNat } := by
  have dst : s'.eng.dst = s.eng.dst := (regs .dst (by decide)).symm
  have cnt : s'.eng.cnt = s.eng.cnt := (regs .cnt (by decide)).symm
  obtain ⟨fault, -⟩ := (exec_mcc_next_iff s t).1 h
  rw [exec_mcc_next_iff, mccAccess_congr dst cnt, dst, cnt]
  exact ⟨defined fault, rfl⟩

/-- The pixels CIA leaves in its destination row are decided by the pixels of its two rows. -/
theorem readPixel_ciaRow_congr {m m' : Memory} {e : Engine} (rows : rowsCompatible (dstRow e) (srcRow e) = true)
    (dst : ∀ j < e.cnt.toNat, readPixel m' (elementAddr e.dst j) = readPixel m (elementAddr e.dst j))
    (src : ∀ j < e.cnt.toNat, readPixel m' (elementAddr e.src j) = readPixel m (elementAddr e.src j)) :
    ∀ j < e.cnt.toNat, readPixel (ciaRow m' e.dst e.src e.cnt.toNat) (elementAddr e.dst j) =
      readPixel (ciaRow m e.dst e.src e.cnt.toNat) (elementAddr e.dst j) := by
  intro j hj
  have apart := (ciaRows_compatible_iff e).1 rows
  have short : e.cnt.toNat ≤ 2 ^ 32 := e.cnt.isLt.le
  rw [readPixel_ciaRow m' _ _ _ _ short hj apart, readPixel_ciaRow m _ _ _ _ short hj apart, dst j hj, src j hj]

/-- The pixels MCC leaves in its row are decided by the pixels of the row. -/
theorem readPixel_mccRow_congr {m m' : Memory} {e : Engine}
    (dst : ∀ j < e.cnt.toNat, readPixel m' (elementAddr e.dst j) = readPixel m (elementAddr e.dst j)) :
    ∀ j < e.cnt.toNat, readPixel (mccRow m' e.dst e.cnt.toNat) (elementAddr e.dst j) =
      readPixel (mccRow m e.dst e.cnt.toNat) (elementAddr e.dst j) := by
  intro j hj
  have short : e.cnt.toNat ≤ 2 ^ 32 := e.cnt.isLt.le
  rw [readPixel_mccRow m' _ _ _ short hj, readPixel_mccRow m _ _ _ short hj, dst j hj]

/-- Settles O36: completion asks for the registers, the backing of the rows and the commands in flight only, and each
pixel of the result for its row's pixels only. -/
theorem rowCommandsDependOnTheirRowsOnly : Obligations.RowCommandsDependOnTheirRowsOnly := by
  constructor
  · rintro i s s' t (rfl | rfl) regs mem backed inFlight h
    · refine ⟨_, exec_cia_of_regs h regs fun ok => (accessFault_congr _ backed inFlight).trans ok, ?_⟩
      obtain ⟨-, -, rfl⟩ := (exec_cia_next_iff s t).1 h
      simp only [mem]
    · refine ⟨_, exec_mcc_of_regs h regs fun ok => (accessFault_congr _ backed inFlight).trans ok, ?_⟩
      obtain ⟨-, rfl⟩ := (exec_mcc_next_iff s t).1 h
      simp only [mem]
  · rintro i s s' t (rfl | rfl) regs inFlight dst src h
    · have src := src rfl
      refine ⟨_, exec_cia_of_regs h regs (accessFault_none_of_words inFlight fun a ha => ?_), ?_⟩
      · obtain ⟨j, hj, rfl⟩ | ⟨j, hj, rfl⟩ := ciaAccess_words ha
        · exact (dst j hj).1
        · exact (src j hj).1
      · obtain ⟨rows, -, rfl⟩ := (exec_cia_next_iff s t).1 h
        exact readPixel_ciaRow_congr rows (fun j hj => (dst j hj).2) fun j hj => (src j hj).2
    · refine ⟨_, exec_mcc_of_regs h regs (accessFault_none_of_words inFlight fun a ha => ?_), ?_⟩
      · obtain ⟨j, hj, rfl⟩ := mccAccess_words ha
        exact (dst j hj).1
      · obtain ⟨-, rfl⟩ := (exec_mcc_next_iff s t).1 h
        exact readPixel_mccRow_congr fun j hj => (dst j hj).2

end Sys2Proof.Machine
end

section
/-! The window: register accesses, the CMD write, reset (10_state.md R11 to R31). -/

namespace Sys2Proof.Machine

/-- Settles O41: the read-only registers keep what they held, the others read back, and no other register changes. -/
theorem registerWriteReadsBack : Obligations.RegisterWriteReadsBack := by
  intro s s₁ k r v free window notCmd
  have run : perform (.write k (regNumber r) v) s = .next (s₁.withEng (writeReg s₁.eng r v)) :=
    (onWindow_free _ free window).trans (registerWrite_regNumber s₁ v notCmd)
  refine ⟨_, run, rfl, ?_, fun r' hr' => readReg_writeReg_other _ _ hr'⟩
  rw [withEng_eng]
  by_cases ro : r ∈ readOnlyRegs
  · rw [writeReg_readOnly _ _ ro]
    exact (if_pos ro).symm
  · rw [readReg_writeReg_same _ _ notCmd ro]
    exact (if_neg ro).symm

theorem busy_iff (s : State) (k : Nat) : s.busy k = true ↔ ∃ f ∈ s.inFlight, f.engine = k := by simp [State.busy]

/-- A CMD write that has begun is in flight on its window (log 7). -/
theorem busy_of_beginCmd {s t : State} {k : Nat} {w : Word} (h : perform (.beginCmd k w) s = .next t) :
    t.busy k = true := by
  cases transition_of_perform h with
  | beginCmd => exact (busy_iff _ k).2 ⟨_, List.mem_cons_self, rfl⟩

/-- A busy window refuses every transaction but the end of its CMD write (log 9). -/
theorem perform_busy {t : State} {k : Nat} (hb : t.busy k = true) {ev : Event} (hev : eventEngine ev = some k)
    (notEnd : ev ≠ .endCmd k) : perform ev t = .refused .windowBusy := by
  cases ev with
  | pmWrite | pmRead => cases hev
  | endCmd => cases hev; exact absurd rfl notEnd
  | write | read | reset | beginCmd => cases hev; exact onWindow_busy _ hb

/-- Without the CMD writes of engine `k` in flight, its window is free. -/
theorem not_busy_filter {s t : State} {k : Nat} (h : t.inFlight = s.inFlight.filter fun f => f.engine != k) :
    t.busy k = false := by
  rw [← Bool.not_eq_true, busy_iff, h]
  rintro ⟨f, hf, rfl⟩
  simp at hf

/-- Settles O56: the begin puts the command in flight, where only its end takes it out. -/
theorem windowIsBusyUntilTheCommandWriteEnds : Obligations.WindowIsBusyUntilTheCommandWriteEnds := by
  intro s t k w h
  have hb := busy_of_beginCmd h
  refine ⟨fun ev => perform_busy hb, { t with inFlight := t.inFlight.filter fun f => f.engine != k }, ?_,
    not_busy_filter rfl, rfl, rfl⟩
  simp [perform, commandEnd, hb]

/-- Settles O40, field by field of `statusWord`. -/
theorem statusHoldsTAndErr : Obligations.StatusHoldsTAndErr := by
  intro e v
  obtain ⟨t, reserved, err, upper⟩ := statusWord_fields e
  refine ⟨t, reserved, ?_, upper, rfl, ?_, rfl⟩
  · rw [readReg, err]
    cases e.err <;> rfl
  · rw [readReg, err, halted_iff, errCode_ne_zero_iff]

/-- Settles O42: addressing the window changes no engine, and the read adds one response. -/
theorem registerReadChangesNothing : Obligations.RegisterReadChangesNothing := by
  intro s s₁ k n free window
  obtain ⟨index, engines, -, -, -, -, -, responses⟩ := focus_some window
  refine ⟨?_, engines, rfl⟩
  rw [perform, onWindow_free _ free window, registerRead, index, responses]

/-- Settles O43: no register has the number. -/
theorem reservedNumbersReadZeroAndIgnoreWrites : Obligations.ReservedNumbersReadZeroAndIgnoreWrites := by
  intro s n v hn
  exact ⟨registerWrite_reserved s v hn, by rw [registerRead, readNumber_reserved _ hn]⟩

/-- Settles O44. -/
theorem afterResetEveryRegisterReadsZero : Obligations.AfterResetEveryRegisterReadsZero :=
  fun n => ⟨readNumber_atReset n, rfl⟩

/-- A write of a command's word to CMD of a free window whose engine is not halted runs the command (60_exceptions.md
R128). -/
theorem perform_command {s s₁ : State} {k : Nat} {w : Word} {i : Instr} (free : s.busy k = false)
    (window : s.focus k = some s₁) (noError : s₁.eng.err = .noError) (decoded : decode w = .ok i) :
    perform (.write k 0x00 w) s = exec i s₁ := by
  rw [perform_cmd free window, commandWrite, (halted_eq_false_iff _).2 noError, decoded]
  rfl

/-- Settles O47: taking the transaction off the script leaves the window free and addressed. -/
theorem stepRunsTheDecodedCommand : Obligations.StepRunsTheDecodedCommand := by
  intro s s₁ rest k w i script free window noError decoded _
  rw [step_cons script]
  refine perform_command (s₁ := { s₁ with script := rest }) free ?_ noError decoded
  rw [focus_script, window, Option.map_some]

/-- Settles O48: the script's head is the write, and the window it names is the addressed one, made free. -/
theorem placedCommandWordRunsNext : Obligations.PlacedCommandWordRunsNext := by
  intro s nbits w i noError decoded
  refine (step_cons rfl).trans ?_
  exact perform_command (not_busy_filter (s := s) rfl) (focus_index _) noError (decode_of_decodeTableWord decoded)

end Sys2Proof.Machine
end

section
/-! The row commands outside their contract: an unbacked word, partly overlapping rows, a data race (20_memory.md R48, R50,
R56). -/

namespace Sys2Proof.Machine

/-- MCC ends in the fault of its access, when it has one. -/
theorem exec_mcc_of_accessFault {s : State} {f : Fault} (h : accessFault s (mccAccess s.eng) = some f) :
    exec .mcc s = .fault f := by simp [exec, execMcc, h]

/-- An access with an unbacked word is the fault `unbackedAccess`, whatever else it violates (log 14). -/
theorem accessFault_of_unbacked {s : State} {acc : Access} {a : Word}
    (accessed : acc.readsWord a = true ∨ acc.writesWord a = true) (unbacked : wordBacked s.backed a = false) :
    accessFault s acc = some .unbackedAccess := by
  have notBacked : ¬accessBacked s.backed acc = true := fun h =>
    absurd ((accessBacked_iff _ _).1 h a accessed) (by simp [unbacked])
  rw [accessFault, if_neg notBacked]

/-- Settles O15: an element's word is in the access set, so the access is no defined one. -/
theorem rowCommandFaultsOnAnUnbackedWord : Obligations.RowCommandFaultsOnAnUnbackedWord := by
  constructor
  · intro s i hi unbacked
    exact exec_mcc_of_accessFault
      (accessFault_of_unbacked (.inr ((mccAccess_writesWord _ _).2 ⟨i, hi, rfl⟩)) unbacked)
  · intro s i hi unbacked
    have fault : accessFault s (ciaAccess s.eng) = some .unbackedAccess := by
      obtain dst | src := unbacked
      · exact accessFault_of_unbacked (.inr ((ciaAccess_writesWord _ _).2 ⟨i, hi, rfl⟩)) dst
      · exact accessFault_of_unbacked (.inl ((ciaAccess_readsWord _ _).2 (.inl ⟨i, hi, rfl⟩))) src
    exact exec_cia_fault (.inr (by simp [fault]))

/-- Settles O16: an address in both rows of different bases makes them incompatible, which CIA tests first. -/
theorem ciaFaultsOnPartlyOverlappingRows : Obligations.CiaFaultsOnPartlyOverlappingRows := by
  intro s i j bases hi hj shared
  have overlap : ¬rowsCompatible (dstRow s.eng) (srcRow s.eng) = true := by
    rw [ciaRows_compatible_iff]
    rintro (same | apart)
    · exact bases same
    · exact apart i j hi hj shared
  rw [exec, execCia, if_neg overlap]

/-- An access that shares a word with a command in flight, which one of the two writes, is no defined one (20_memory.md R50). -/
theorem accessFault_ne_none_of_word {s : State} {acc : Access} {g : InFlight} {a : Word} (inFlight : g ∈ s.inFlight)
    (word : (acc.writesWord a = true ∧ (g.access.readsWord a = true ∨ g.access.writesWord a = true)) ∨
      (acc.readsWord a = true ∧ g.access.writesWord a = true)) : accessFault s acc ≠ none :=
  accessFault_of_race inFlight ((conflicts_iff _ _).2 ⟨a, word⟩)

/-- Settles O17: the word in common makes the access conflict with the command in flight. -/
theorem rowCommandFaultsOnADataRace : Obligations.RowCommandFaultsOnADataRace := by
  intro s g i inFlight hi
  refine ⟨fun accessed => ⟨exec_mcc_fault ?_, exec_cia_fault (.inr ?_)⟩, fun written => exec_cia_fault (.inr ?_)⟩
  · exact accessFault_ne_none_of_word inFlight (.inl ⟨(mccAccess_writesWord _ _).2 ⟨i, hi, rfl⟩, accessed⟩)
  · exact accessFault_ne_none_of_word inFlight (.inl ⟨(ciaAccess_writesWord _ _).2 ⟨i, hi, rfl⟩, accessed⟩)
  · exact accessFault_ne_none_of_word inFlight (.inr ⟨(ciaAccess_readsWord _ _).2 (.inl ⟨i, hi, rfl⟩), written⟩)

end Sys2Proof.Machine
end

section
/-! What a CMD write does to pixel memory, by the word and the registers of the addressed engine (20_memory.md R41, R46). -/

namespace Sys2Proof.Machine

/-- What a CMD write is on an engine with registers `e`: CIA, MCC, or an operation that touches no pixel memory. -/
inductive CommandKind (w : Word) (e : Engine) : Prop where
  | cia (word : w = encode .cia) (run : ∀ s : State, s.eng = e → commandWrite w s = exec .cia s)
      (access : ∀ s : State, s.eng = e → commandAccess w s = ciaAccess e)
  | mcc (word : w = encode .mcc) (run : ∀ s : State, s.eng = e → commandWrite w s = exec .mcc s)
      (access : ∀ s : State, s.eng = e → commandAccess w s = mccAccess e)
  | registers (e' : Engine) (run : ∀ s : State, s.eng = e → commandWrite w s = .next (s.withEng e'))
      (access : ∀ s : State, s.eng = e → commandAccess w s = Access.empty)

theorem commandKind (w : Word) (e : Engine) : CommandKind w e := by
  by_cases halted : e.halted = true
  · refine .registers e ?_ ?_ <;> rintro s rfl
    · simp [commandWrite, halted]
    · simp [commandAccess, halted]
  cases decoded : decode w with
  | error r =>
    refine .registers { e with err := .illegalCmd, ecmd := w } ?_ ?_ <;> rintro s rfl
    · simp [commandWrite, halted, decoded, raiseError]
    · simp [commandAccess, halted, decoded]
  | ok i =>
    by_cases isCia : i = .cia
    · subst isCia
      refine .cia (eq_encode_of_decode decoded) ?_ ?_ <;> rintro s rfl
      · simp [commandWrite, halted, decoded]
      · simp [commandAccess, halted, decoded]
    by_cases isMcc : i = .mcc
    · subst isMcc
      refine .mcc (eq_encode_of_decode decoded) ?_ ?_ <;> rintro s rfl
      · simp [commandWrite, halted, decoded]
      · simp [commandAccess, halted, decoded]
    · refine .registers (engineAfter i e) ?_ ?_ <;> rintro s rfl
      · simp [commandWrite, halted, decoded, exec_eq_engineAfter s isCia isMcc]
      · simp [commandAccess, halted, decoded, isCia, isMcc]

/-- A CMD write that changes pixel memory is CIA's or MCC's word (20_memory.md R41). -/
theorem commandWrite_next_mem {w : Word} {s t : State} (h : commandWrite w s = .next t) :
    t.mem = s.mem ∨ w ∈ ([0x20, 0x21] : List Word) := by
  cases commandKind w s.eng with
  | cia word => exact .inr (by rw [word]; decide)
  | mcc word => exact .inr (by rw [word]; decide)
  | registers e' run =>
    rw [run s rfl] at h
    cases h
    exact .inl rfl

/-- A transaction changes pixel memory only as the platform's own write or as a CMD write of CIA or MCC. -/
theorem Transition.mem_cases {s t : State} {ev : Event} (h : Transition s ev t) :
    t.mem = s.mem ∨ (∃ addr vs, ev = .pmWrite addr vs) ∨
      ∃ k w, w ∈ ([0x20, 0x21] : List Word) ∧ (ev = .write k 0x00 w ∨ ev = .beginCmd k w) := by
  cases h with
  | writeReg _ window | writeReserved _ window | read _ window | reset _ window =>
    obtain ⟨-, -, -, mem, -⟩ := focus_some window
    exact .inl mem
  | writeCmd _ window run =>
    obtain ⟨-, -, -, mem, -⟩ := focus_some window
    exact (commandWrite_next_mem run).imp (·.trans mem) fun word => .inr ⟨_, _, word, .inl rfl⟩
  | beginCmd _ window run =>
    obtain ⟨-, -, -, mem, -⟩ := focus_some window
    exact (commandWrite_next_mem run).imp (·.trans mem) fun word => .inr ⟨_, _, word, .inr rfl⟩
  | endCmd | pmRead => exact .inl rfl
  | pmWrite => exact .inr (.inl ⟨_, _, rfl⟩)

/-- Settles O52: a step is the next transaction, which changes pixel memory as `Transition.mem_cases` says. -/
theorem pixelMemoryChangesByRowCommandsOnly : Obligations.PixelMemoryChangesByRowCommandsOnly := by
  intro s t h
  obtain ⟨-, rfl⟩ | ⟨ev, rest, script, transition⟩ := step_next_cases h
  · exact .inl rfl
  obtain same | ⟨addr, vs, rfl⟩ | ⟨k, w, word, rfl | rfl⟩ := transition.mem_cases
  · exact .inl same
  · exact .inr (.inl ⟨addr, vs, rest, script⟩)
  · exact .inr (.inr ⟨k, w, rest, word, .inl script⟩)
  · exact .inr (.inr ⟨k, w, rest, word, .inr script⟩)

/-! ### A CMD write and its access set -/

theorem accessFault_empty (s : State) : accessFault s Access.empty = none := by
  rw [accessFault_none_iff, racesInFlight, List.any_eq_false]
  exact ⟨rfl, fun f _ => by simp [conflicts_empty_left]⟩

/-- A CMD write whose access is no defined one is a fault of the model (20_memory.md R48, R50). -/
theorem commandWrite_fault {w : Word} {s : State} (h : accessFault s (commandAccess w s) ≠ none) :
    ∃ f, commandWrite w s = .fault f := by
  cases commandKind w s.eng with
  | cia _ run access =>
    rw [run s rfl]
    exact exec_cia_fault (.inr (access s rfl ▸ h))
  | mcc _ run access =>
    rw [run s rfl]
    exact exec_mcc_fault (access s rfl ▸ h)
  | registers e' run access => exact absurd (accessFault_empty s) (access s rfl ▸ h)

/-- A CMD write changes no pixel word outside the written part of its access set (20_memory.md R46). -/
theorem commandWrite_next_outside {w a : Word} {s t : State} (h : commandWrite w s = .next t)
    (outside : (commandAccess w s).writesWord a = false) : readPixel t.mem a = readPixel s.mem a := by
  cases commandKind w s.eng with
  | cia _ run access =>
    rw [access s rfl, ← Bool.not_eq_true, ciaAccess_writesWord] at outside
    exact exec_next_outside_row (run s rfl ▸ h) fun i hi eq => outside ⟨i, hi, eq⟩
  | mcc _ run access =>
    rw [access s rfl, ← Bool.not_eq_true, mccAccess_writesWord] at outside
    exact exec_next_outside_row (run s rfl ▸ h) fun i hi eq => outside ⟨i, hi, eq⟩
  | registers e' run =>
    rw [run s rfl] at h
    cases h
    rfl

/-- A CMD write that completes, completes on an engine with the same registers where its access is as defined; it leaves the
same registers, and, where the words of its access set agree before, they agree after. -/
theorem commandWrite_next_transfer {w : Word} {s s' t : State} (h : commandWrite w s = .next t) (eng : s'.eng = s.eng)
    (backed : s'.backed = s.backed) (inFlight : s'.inFlight = s.inFlight) :
    ∃ t', commandWrite w s' = .next t' ∧ t'.eng = t.eng ∧
      ((∀ a, (commandAccess w s).readsWord a = true ∨ (commandAccess w s).writesWord a = true →
          readPixel s'.mem a = readPixel s.mem a) →
        ∀ a, (commandAccess w s).writesWord a = true → readPixel t'.mem a = readPixel t.mem a) := by
  have defined (acc : Access) : accessFault s acc = none → accessFault s' acc = none :=
    fun ok => (accessFault_congr acc backed inFlight).trans ok
  cases commandKind w s.eng with
  | cia _ run access =>
    rw [run s rfl] at h
    rw [run s' eng, access s rfl]
    refine ⟨_, exec_cia_of_regs h (fun r _ => by rw [eng]) (defined _), ?_⟩
    obtain ⟨rows, -, rfl⟩ := (exec_cia_next_iff s t).1 h
    refine ⟨eng, fun agree a written => ?_⟩
    obtain ⟨i, hi, rfl⟩ := (ciaAccess_writesWord _ _).1 written
    exact readPixel_ciaRow_congr rows
      (fun j hj => agree _ (.inr ((ciaAccess_writesWord _ _).2 ⟨j, hj, rfl⟩)))
      (fun j hj => agree _ (.inl ((ciaAccess_readsWord _ _).2 (.inl ⟨j, hj, rfl⟩)))) i hi
  | mcc _ run access =>
    rw [run s rfl] at h
    rw [run s' eng, access s rfl]
    refine ⟨_, exec_mcc_of_regs h (fun r _ => by rw [eng]) (defined _), ?_⟩
    obtain ⟨-, rfl⟩ := (exec_mcc_next_iff s t).1 h
    refine ⟨eng, fun agree a written => ?_⟩
    obtain ⟨i, hi, rfl⟩ := (mccAccess_writesWord _ _).1 written
    exact readPixel_mccRow_congr (fun j hj => agree _ (.inr ((mccAccess_writesWord _ _).2 ⟨j, hj, rfl⟩))) i hi
  | registers e' run access =>
    rw [run s rfl] at h
    cases h
    refine ⟨_, run s' eng, rfl, fun agree a written => ?_⟩
    rw [access s rfl] at written
    cases written

end Sys2Proof.Machine
end

section
/-! Several engines: CMD writes of two engines, one after the other and overlapping in time (20_memory.md R50, R51). -/

namespace Sys2Proof.Machine

/-- A transaction of another engine, or of none, does nothing to engine `k`. -/
theorem EngineMove.eq_of_other {k : Nat} {ev : Event} {e e' : Engine} (h : EngineMove k ev e e')
    (other : eventEngine ev ≠ some k) : e' = e := by
  cases h with
  | keep => rfl
  | register | reset => exact absurd rfl other
  | command cmd =>
    obtain rfl | rfl := cmd
    · exact absurd rfl other
    · exact absurd rfl other

/-- A transaction changes no engine but the one it addresses (60_exceptions.md R131). -/
theorem Transition.engines_other {s t : State} {ev : Event} (h : Transition s ev t) {k : Nat}
    (other : eventEngine ev ≠ some k) : t.engines[k]? = s.engines[k]? := by
  cases he : s.engines[k]? with
  | none => simpa [h.engines_length] using he
  | some e =>
    obtain ⟨e', he', move⟩ := h.engineMove he
    rw [he', move.eq_of_other other]

/-- Two access sets without a conflict: what one writes, the other does not access. -/
theorem writesWord_false_of_accessed {x y : Access} (apart : x.conflicts y = false) {a : Word}
    (accessed : y.readsWord a = true ∨ y.writesWord a = true) : x.writesWord a = false := by
  rw [← Bool.not_eq_true, conflicts_iff] at apart
  exact Bool.eq_false_iff.2 fun written => apart ⟨a, .inl ⟨written, accessed⟩⟩

theorem perform_cmd_next {s t : State} {k : Nat} {w : Word} (h : perform (.write k 0x00 w) s = .next t) :
    s.busy k = false ∧ ∃ s₁, s.focus k = some s₁ ∧ commandWrite w s₁ = .next t := onWindow_next h

/-- After a CMD write on window `k`, engine `k` has the registers of the addressed engine. -/
theorem engine_of_commandWrite {s s₁ t : State} {k : Nat} {w : Word} (window : s.focus k = some s₁)
    (run : commandWrite w s₁ = .next t) : t.engines[k]? = some t.eng := by
  obtain ⟨index, -⟩ := focus_some window
  obtain ⟨before, -⟩ := commandWrite_next_env run
  rw [← index, State.index, ← before]
  exact engines_getElem?_index t

/-! In the lemmas below `sk` is a state that addresses engine `k` with the registers it has in `s`. -/

/-- A write to CMD of engine `k` keeps backing, commands in flight, the other engines, and every word it does not write. -/
theorem perform_cmd_frame {s sk t : State} {k : Nat} {w : Word} (eng : s.engines[k]? = some sk.eng)
    (h : perform (.write k 0x00 w) s = .next t) :
    t.backed = s.backed ∧ t.inFlight = s.inFlight ∧ (∀ i ≠ k, t.engines[i]? = s.engines[i]?) ∧
      ∀ a, (commandAccess w sk).writesWord a = false → readPixel t.mem a = readPixel s.mem a := by
  obtain ⟨-, s₁, window, run⟩ := perform_cmd_next h
  obtain ⟨-, -, eng₁, mem, backed, inFlight, -⟩ := focus_some window
  obtain ⟨-, -, backed', inFlight', -⟩ := commandWrite_next_env run
  have same : s₁.eng = sk.eng := Option.some.inj (eng₁.symm.trans eng)
  refine ⟨backed'.trans backed, inFlight'.trans inFlight, fun i hi => ?_, fun a outside => ?_⟩
  · exact (transition_of_perform h).engines_other fun eq => hi (Option.some.inj eq).symm
  · rw [← commandAccess_congr same] at outside
    exact (commandWrite_next_outside run outside).trans (by rw [mem])

/-- A write to CMD of engine `k` that completes, completes in every state with the same engine `k`, backing and commands in
flight; it leaves the same engine `k` and, where the words of its access set agree before, the same written words. -/
theorem perform_cmd_transfer {s s' sk t : State} {k : Nat} {w : Word} (eng : s.engines[k]? = some sk.eng)
    (eng' : s'.engines[k]? = some sk.eng) (backed : s'.backed = s.backed) (inFlight : s'.inFlight = s.inFlight)
    (h : perform (.write k 0x00 w) s = .next t) :
    ∃ t', perform (.write k 0x00 w) s' = .next t' ∧ t'.engines[k]? = t.engines[k]? ∧
      ((∀ a, (commandAccess w sk).readsWord a = true ∨ (commandAccess w sk).writesWord a = true →
          readPixel s'.mem a = readPixel s.mem a) →
        ∀ a, (commandAccess w sk).writesWord a = true → readPixel t'.mem a = readPixel t.mem a) := by
  obtain ⟨free, s₁, window, run⟩ := perform_cmd_next h
  obtain ⟨index, -, eng₁, mem, backed₁, inFlight₁, -⟩ := focus_some window
  obtain ⟨s₁', window', same'⟩ := focus_of_engine eng'
  obtain ⟨index', -, -, mem', backed₁', inFlight₁', -⟩ := focus_some window'
  have same : s₁.eng = sk.eng := Option.some.inj (eng₁.symm.trans eng)
  obtain ⟨t', run', engT, pixels⟩ := commandWrite_next_transfer run (same'.trans same.symm)
    (by rw [backed₁', backed, backed₁]) (by rw [inFlight₁', inFlight, inFlight₁])
  rw [commandAccess_congr same, mem, mem'] at pixels
  refine ⟨t', ?_, ?_, pixels⟩
  · rw [perform_cmd (by rwa [busy_congr inFlight]) window', run']
  · rw [engine_of_commandWrite window' run', engine_of_commandWrite window run, engT]

/-- Settles O54: with the other command's writes outside its access set, each command finds the same words in either order,
so it writes the same; a word neither writes keeps its value. -/
theorem nonConflictingCommandsCommute : Obligations.NonConflictingCommandsCommute := by
  intro s sj sk a ab j k wj wk distinct windowJ windowK apart runJ runK
  obtain ⟨-, -, engJ, -⟩ := focus_some windowJ
  obtain ⟨-, -, engK, -⟩ := focus_some windowK
  have apart' := (conflicts_comm _ _).trans apart
  obtain ⟨backedA, inFlightA, othersA, outsideA⟩ := perform_cmd_frame engJ runJ
  have engKA : a.engines[k]? = some sk.eng := (othersA k distinct.symm).trans engK
  obtain ⟨-, -, othersAB, outsideAB⟩ := perform_cmd_frame engKA runK
  obtain ⟨b, runB, engB, pixelsB⟩ := perform_cmd_transfer engKA engK backedA.symm inFlightA.symm runK
  obtain ⟨backedB, inFlightB, othersB, outsideB⟩ := perform_cmd_frame engK runB
  have engJB : b.engines[j]? = some sj.eng := (othersB j distinct).trans engJ
  obtain ⟨ba, runBA, engBA, pixelsBA⟩ := perform_cmd_transfer engJ engJB backedB inFlightB runJ
  obtain ⟨-, -, othersBA, outsideBA⟩ := perform_cmd_frame engJB runBA
  have writtenK := pixelsB fun x accessed => (outsideA x (writesWord_false_of_accessed apart accessed)).symm
  have writtenJ := pixelsBA fun x accessed => outsideB x (writesWord_false_of_accessed apart' accessed)
  refine ⟨b, ba, runB, runBA, List.ext_getElem? fun i => ?_, fun x => ?_⟩
  · by_cases isK : i = k
    · subst isK
      rw [othersBA i distinct.symm, engB]
    by_cases isJ : i = j
    · subst isJ
      rw [engBA, othersAB i distinct]
    · rw [othersBA i isJ, othersB i isK, othersAB i isK, othersA i isJ]
  · cases inK : (commandAccess wk sk).writesWord x with
    | true => rw [outsideBA x (writesWord_false_of_accessed apart (.inr inK)), writtenK x inK]
    | false =>
      rw [outsideAB x inK]
      cases inJ : (commandAccess wj sj).writesWord x with
      | true => exact writtenJ x inJ
      | false => rw [outsideBA x inJ, outsideB x inK, outsideA x inJ]

/-- A CMD write that begins puts its access set in flight, before those that are (log 7). -/
theorem perform_beginCmd_next {s s₁ t : State} {k : Nat} {w : Word} (window : s.focus k = some s₁)
    (h : perform (.beginCmd k w) s = .next t) : t.inFlight = ⟨k, commandAccess w s₁⟩ :: s.inFlight := by
  obtain ⟨-, s₂, window', begun⟩ := onWindow_next h
  obtain rfl : s₁ = s₂ := Option.some.inj (window.symm.trans window')
  obtain ⟨index, -, -, -, -, inFlight, -⟩ := focus_some window
  obtain ⟨u, run, rfl⟩ := commandBegin_next begun
  obtain ⟨-, -, -, inFlight', -⟩ := commandWrite_next_env run
  rw [index, inFlight', inFlight]

/-- Settles O55: the access set of the command that has begun is in flight, so the other command's access is a race. -/
theorem overlappingConflictingCommandsFault : Obligations.OverlappingConflictingCommandsFault := by
  intro s sj sk a j k wj wk distinct freeK windowJ windowK conflict begun
  obtain ⟨-, -, engK, -⟩ := focus_some windowK
  have inFlight := perform_beginCmd_next windowJ begun
  have engKA : a.engines[k]? = some sk.eng :=
    ((transition_of_perform begun).engines_other fun eq => distinct (Option.some.inj eq)).trans engK
  obtain ⟨sk', window, same⟩ := focus_of_engine engKA
  obtain ⟨-, -, -, -, -, inFlight', -⟩ := focus_some window
  have free : a.busy k = false := by simpa [State.busy, inFlight, distinct] using freeK
  have race : accessFault sk' (commandAccess wk sk') ≠ none := by
    refine accessFault_of_race (f := ⟨j, commandAccess wj sj⟩) (by simp [inFlight', inFlight]) ?_
    rw [commandAccess_congr same, conflicts_comm]
    exact conflict
  obtain ⟨f, fault⟩ := commandWrite_fault race
  refine ⟨⟨f, (perform_cmd free window).trans fault⟩, f, ?_⟩
  rw [perform, onWindow_free _ free window, commandBegin, fault]

end Sys2Proof.Machine
end

section
/-! The byte-addressed view of pixel memory (20_memory.md R43). -/

namespace Sys2Proof.Machine

/-- Bits 32:1 of a byte address are the word's address, and bit 0 tells its two bytes apart. -/
theorem byteAddr_fields {byteAddr : BitVec 33} {addr : Word} {odd : Bool}
    (h : byteAddr.toNat = 2 * addr.toNat + odd.toNat) :
    byteAddr.extractLsb' 1 32 = addr ∧ byteAddr.getLsbD 0 = odd := by
  constructor
  · apply BitVec.eq_of_toNat_eq
    have := addr.isLt
    have := odd.toNat_le
    rw [BitVec.extractLsb'_toNat, h, Nat.shiftRight_eq_div_pow]
    omega
  · cases odd <;> simp [BitVec.getLsbD, h]

/-- Settles O58: the fields of the two byte addresses select the word and the byte. -/
theorem byteViewFollowsThePixelByteOrder : Obligations.ByteViewFollowsThePixelByteOrder := by
  intro m addr even odd hEven hOdd
  obtain ⟨wordEven, bitEven⟩ := byteAddr_fields (odd := false) hEven
  obtain ⟨wordOdd, bitOdd⟩ := byteAddr_fields (odd := true) hOdd
  simp only [readByte, Config.pixelByteOrder, wordEven, wordOdd, bitEven, bitOdd]
  exact ⟨rfl, rfl, rfl, rfl, rfl, rfl⟩

end Sys2Proof.Machine
end

section
/-! The decoder against the table of words (30_encoding.md R62, R63). -/

namespace Sys2Proof

/-- Settles O1: each word is evaluated. -/
theorem sampleWordsDecodeAsTheTableSays : Obligations.SampleWordsDecodeAsTheTableSays := by
  unfold Obligations.SampleWordsDecodeAsTheTableSays
  decide

theorem decode_eq_ok_iff (w : Word) (i : Instr) : decode w = .ok i ↔ w = encode i :=
  ⟨eq_encode_of_decode, fun h => h ▸ decode_encode i⟩

/-- Settles O2: the rows of the table one by one; the equivalence is `decode_eq_ok_iff`. -/
theorem wordSelectsCommandIffItIsItsTableWord : Obligations.WordSelectsCommandIffItIsItsTableWord :=
  ⟨fun i => by cases i <;> decide, decode_eq_ok_iff⟩

end Sys2Proof
end

section
/-! The platform's writes to pixel memory and the script line `chan` (30_encoding.md R66). -/

namespace Sys2Proof.Machine

/-- Writing a backed row is no fault while no command is in flight (20_memory.md R48, R50). -/
theorem accessFault_writtenRow_none {s : State} {addr : Word} {n : Nat} (idle : s.inFlight = [])
    (backed : ∀ i < n, wordBacked s.backed (elementAddr addr i) = true) :
    accessFault s ⟨[], [⟨addr, n⟩]⟩ = none := by
  rw [accessFault_none_iff]
  constructor
  · simpa [accessBacked] using (rowBacked_iff s.backed addr n).2 backed
  · simp [racesInFlight, idle]

/-- Settles O57: the write goes through, and the row then reads as `writeRow`'s two rules say. -/
theorem platformWriteIsReadBack : Obligations.PlatformWriteIsReadBack := by
  intro s addr vs short idle backed
  refine ⟨writeRow s.mem addr vs, ?_, fun i hi => readPixel_writeRow vs s.mem addr i short hi,
    fun a outside => readPixel_writeRow_outside vs s.mem addr a outside⟩
  simp only [perform, platformWrite, accessFault_writtenRow_none idle backed]

/-- A channel put above the bits that a word uses is added to it. -/
theorem toNat_channel_shiftLeft_or {c k : Nat} {low : Word} (hc : c ≤ 255) (hk : k ≤ 24) (hlow : low.toNat < 2 ^ k) :
    ((BitVec.ofNat 32 c <<< k) ||| low).toNat = c * 2 ^ k + low.toNat := by
  have fits : c * 2 ^ k ≤ 255 * 2 ^ 24 := Nat.mul_le_mul hc (Nat.pow_le_pow_right (by decide) hk)
  rw [BitVec.toNat_or, BitVec.toNat_shiftLeft, BitVec.toNat_ofNat, Nat.mod_eq_of_lt (a := c) (by omega),
    Nat.mod_eq_of_lt (by rw [Nat.shiftLeft_eq]; omega), ← Nat.shiftLeft_add_eq_or_of_lt hlow, Nat.shiftLeft_eq]

/-- The four channels do not overlap in CH: they are the digits of its value in base 2^8 (10_state.md R14). -/
theorem toNat_channelsWord {a r g b : Nat} (ha : a ≤ 255) (hr : r ≤ 255) (hg : g ≤ 255) (hb : b ≤ 255) :
    (channelsWord a r g b).toNat = a * 2 ^ 24 + (r * 2 ^ 16 + (g * 2 ^ 8 + b)) := by
  have blue : (BitVec.ofNat 32 b).toNat = b := by rw [BitVec.toNat_ofNat, Nat.mod_eq_of_lt (by omega)]
  have green := toNat_channel_shiftLeft_or (k := 8) hg (by decide) (low := BitVec.ofNat 32 b) (by omega)
  have red := toNat_channel_shiftLeft_or (k := 16) hr (by decide)
    (low := BitVec.ofNat 32 g <<< 8 ||| BitVec.ofNat 32 b) (by omega)
  rw [channelsWord, BitVec.or_assoc, BitVec.or_assoc, toNat_channel_shiftLeft_or ha le_rfl (by omega), red, green, blue]

/-- Settles O59: the bytes of the word are its digits in base 2^8, which are the channels. -/
theorem chanLineWritesTheFourChannels : Obligations.ChanLineWritesTheFourChannels := by
  intro k a r g b wf
  simp only [Line.wf, Bool.and_eq_true, decide_eq_true_eq] at wf
  obtain ⟨⟨⟨ha, hr⟩, hg⟩, hb⟩ := wf
  refine ⟨channelsWord a r g b, rfl, ?_⟩
  simp only [BitVec.extractLsb'_toNat, toNat_channelsWord ha hr hg hb, Nat.shiftRight_eq_div_pow]
  omega

end Sys2Proof.Machine
end

section
/-! The PixelFormat unit (40_pixelformat.md). PACK and UNPACK each put four fields at places that do not overlap, so a
field read back from its place is the field that was put there. -/

namespace Sys2Proof.Machine

/-! ### A field at a place of a word: `x.setWidth w <<< n` is `x`, put at bit `n` of a word of `w` bits -/

theorem extractLsb'_placed_same {k w n : Nat} (x : BitVec k) (fits : n + k ≤ w) :
    (x.setWidth w <<< n).extractLsb' n k = x := by
  ext i hi
  have inside : n + i < w := by omega
  simp [inside, BitVec.getLsbD_eq_getElem hi]

theorem extractLsb'_placed_other {k w n m l : Nat} (x : BitVec k) (apart : m + l ≤ n ∨ n + k ≤ m) :
    (x.setWidth w <<< n).extractLsb' m l = 0#l := by
  ext i hi
  obtain below | above := apart
  · have : m + i < n := by omega
    simp [this]
  · have : x.getLsbD (m + i - n) = false := BitVec.getLsbD_of_ge x _ (by omega)
    simp [this]

theorem extractLsb'_extractLsb'_of_fits {w n k m l : Nat} (x : BitVec w) (fits : m + l ≤ k) :
    (x.extractLsb' n k).extractLsb' m l = x.extractLsb' (n + m) l := by
  ext i hi
  have inside : m + i < k := by omega
  simp [inside, Nat.add_assoc]

/-! ### One channel, and then the four -/

/-- Quantization truncates: the top bits of the raw channel, at the channel's place (R81). -/
theorem quantize_eq_placed {c : Channel} (raw : BitVec 8) (narrow : c.bits ≤ 8) :
    quantize c raw = (raw.extractLsb' (8 - c.bits) c.bits).setWidth 16 <<< c.shift := by
  rw [quantize, Config.chanBits]
  congr 1
  ext i hi
  by_cases inside : i < c.bits
  · have : 8 - c.bits + i < 16 := by omega
    simp [inside, this]
  · have : raw.getLsbD (8 - c.bits + i) = false := BitVec.getLsbD_of_ge raw _ (by omega)
    simp [inside, this]

/-- The mask of a channel has the bits of the channel's place (00_scope.md R4). -/
theorem getLsbD_channelMask {c : Channel} (fits : c.shift + c.bits ≤ 16) (narrow : c.bits < 16) (i : Nat) :
    (channelMask c).getLsbD (c.shift + i) = decide (i < c.bits) := by
  have ones : (1#16 <<< c.bits - 1#16).toNat = 2 ^ c.bits - 1 := by
    have : 2 ^ c.bits < 2 ^ 16 := Nat.pow_lt_pow_right (by decide) narrow
    have := Nat.two_pow_pos c.bits
    simp [BitVec.toNat_sub, Nat.shiftLeft_eq]
    omega
  rw [channelMask, BitVec.getLsbD_shiftLeft, BitVec.getLsbD, Nat.add_sub_cancel_left, ones,
    Nat.testBit_two_pow_sub_one]
  simp
  omega

/-- Extraction by mask and shift is the field at the channel's place (R83). -/
theorem channelField_eq_extract {c : Channel} (p : Pixel) (fits : c.shift + c.bits ≤ 16) (narrow : c.bits < 16) :
    channelField c p = (p.extractLsb' c.shift c.bits).setWidth 32 := by
  ext i hi
  rw [channelField, BitVec.getElem_setWidth, BitVec.getLsbD_ushiftRight, BitVec.getLsbD_and,
    getLsbD_channelMask fits narrow, BitVec.getElem_setWidth, BitVec.getLsbD_extractLsb', Bool.and_comm]

/-- The stored channels of a packed pixel are the top bits of the four bytes of CH (R82). -/
theorem packPixel_fields (ch : Word) :
    (packPixel ch).extractLsb' 15 1 = ch.extractLsb' 31 1 ∧ (packPixel ch).extractLsb' 10 5 = ch.extractLsb' 19 5 ∧
      (packPixel ch).extractLsb' 5 5 = ch.extractLsb' 11 5 ∧ (packPixel ch).extractLsb' 0 5 = ch.extractLsb' 3 5 := by
  simp (disch := decide) only [packPixel, quantize_eq_placed]
  simp (disch := decide) only [Config.argb1555, BitVec.extractLsb'_or, extractLsb'_placed_same, extractLsb'_placed_other,
    BitVec.or_zero, BitVec.zero_or, rawAlpha, rawRed, rawGreen, rawBlue, extractLsb'_extractLsb'_of_fits, Nat.reduceSub,
    Nat.reduceAdd, and_self]

/-- The fields of UC are the stored channels of PX (R83). -/
theorem unpackPixel_fields (p : Pixel) :
    (unpackPixel p).extractLsb' 24 1 = p.extractLsb' 15 1 ∧ (unpackPixel p).extractLsb' 16 5 = p.extractLsb' 10 5 ∧
      (unpackPixel p).extractLsb' 8 5 = p.extractLsb' 5 5 ∧ (unpackPixel p).extractLsb' 0 5 = p.extractLsb' 0 5 := by
  rw [unpackPixel, ← BitVec.shiftLeft_zero (channelField Config.argb1555.blue p)]
  simp (disch := decide) only [channelField_eq_extract]
  simp (disch := decide) only [Config.argb1555, BitVec.extractLsb'_or, extractLsb'_placed_same, extractLsb'_placed_other,
    BitVec.or_zero, BitVec.zero_or, and_self]

/-- The pack law with the channels' parameters put in (R82). -/
theorem packPixel_eq (ch : Word) : packPixel ch =
    (((ch.extractLsb' 24 8).setWidth 16 >>> 7) <<< 15) ||| (((ch.extractLsb' 16 8).setWidth 16 >>> 3) <<< 10) |||
      (((ch.extractLsb' 8 8).setWidth 16 >>> 3) <<< 5) ||| ((ch.extractLsb' 0 8).setWidth 16 >>> 3) := by
  rw [← BitVec.shiftLeft_zero ((ch.extractLsb' 0 8).setWidth 16 >>> 3)]
  rfl

/-! ### The commands -/

/-- Settles O7: a field of UC is a stored channel of PX, which is the top of a byte of CH. -/
theorem packThenUnpackTruncatesEachChannel : Obligations.PackThenUnpackTruncatesEachChannel := by
  intro s
  obtain ⟨alpha, red, green, blue⟩ := packPixel_fields s.eng.ch
  obtain ⟨ucAlpha, ucRed, ucGreen, ucBlue⟩ := unpackPixel_fields (packPixel s.eng.ch)
  exact ⟨_, _, exec_eq_engineAfter s (by decide) (by decide), exec_eq_engineAfter _ (by decide) (by decide),
    ucAlpha.trans alpha, ucRed.trans red, ucGreen.trans green, ucBlue.trans blue⟩

/-- Settles O4: PACK is `engineAfter .pack`, and its pixel is the formula by `packPixel_eq`. -/
theorem packPacksFourChannelsIntoPx : Obligations.PackPacksFourChannelsIntoPx := by
  refine ⟨decode_encode .pack, fun s => ?_⟩
  rw [← packPixel_eq]
  exact exec_eq_engineAfter s (by decide) (by decide)

/-- Settles O5: UNPACK is `engineAfter .unpack`; the four masks and shifts evaluate to those of the rule. -/
theorem unpackExtractsTheFieldsOfPx : Obligations.UnpackExtractsTheFieldsOfPx :=
  ⟨decode_encode .unpack, fun s => exec_eq_engineAfter s (by decide) (by decide)⟩

/-- Settles O6: PXTST is `engineAfter .pxtst`. -/
theorem pxtstSetsTIffPxIsNonZero : Obligations.PxtstSetsTIffPxIsNonZero :=
  ⟨decode_encode .pxtst, fun s => exec_eq_engineAfter s (by decide) (by decide)⟩

end Sys2Proof.Machine
end

section
/-! The Compositor unit (41_compositor.md R91, R92, R94). A row command is a run of element steps, so what an element step
does to the pixels decides what the row does. -/

namespace Sys2Proof.Machine

/-- Two memories hold the same pixels: equal content of every word, however it is stored (log 3). -/
def SamePixels (m m' : Memory) : Prop := ∀ a : Word, readPixel m a = readPixel m' a

theorem SamePixels.trans {m m' m'' : Memory} (h : SamePixels m m') (h' : SamePixels m' m'') : SamePixels m m'' :=
  fun a => (h a).trans (h' a)

theorem SamePixels.writePixel_congr {m m' : Memory} (h : SamePixels m m') (a : Word) (v : Pixel) :
    SamePixels (writePixel m a v) (writePixel m' a v) := by
  intro b
  rw [readPixel_writePixel, readPixel_writePixel, h b]

/-- Writing the value a word already has changes no pixel. -/
theorem samePixels_writePixel_self {m : Memory} {a : Word} {v : Pixel} (h : readPixel m a = v) :
    SamePixels (writePixel m a v) m := by
  intro b
  rw [readPixel_writePixel]
  split
  case isTrue same => rw [same, h]
  case isFalse => rfl

theorem SamePixels.ciaElement_congr {m m' : Memory} (h : SamePixels m m') (dst src : Word) (i : Nat) :
    SamePixels (ciaElement m dst src i) (ciaElement m' dst src i) := by
  rw [ciaElement, ciaElement, h (elementAddr src i)]
  split
  · exact h.writePixel_congr _ _
  · exact h

theorem SamePixels.mccElement_congr {m m' : Memory} (h : SamePixels m m') (buf : Word) (i : Nat) :
    SamePixels (mccElement m buf i) (mccElement m' buf i) := by
  rw [mccElement, mccElement, h (elementAddr buf i)]
  exact h.writePixel_congr _ _

/-! ### The two masks (00_scope.md R4) -/

theorem alphaTest_eq_true_iff (p : Pixel) : alphaTest p = true ↔ p &&& 0x8000 ≠ 0 := by
  rw [alphaTest, alphaMask_eq, decide_eq_true_iff]

theorem alphaTest_eq_false_iff (p : Pixel) : alphaTest p = false ↔ p &&& 0x8000 = 0 := by
  rw [← Bool.not_eq_true, alphaTest_eq_true_iff, not_not]

theorem alphaTest_masked (p : Pixel) : alphaTest (p &&& rgbMask) = false := by
  have disjoint : (0x7FFF : Pixel) &&& 0x8000 = 0 := by decide
  rw [alphaTest_eq_false_iff, rgbMask_eq, BitVec.and_assoc, disjoint]
  exact BitVec.and_zero

/-- A pixel without alpha is its own masked value: the two masks together are the whole word. -/
theorem and_rgbMask_of_alphaTest {p : Pixel} (h : alphaTest p = false) : p &&& rgbMask = p := by
  have complement : rgbMask ||| 0x8000 = BitVec.allOnes 16 := by decide
  have noAlpha : p &&& 0x8000 = 0 := (alphaTest_eq_false_iff p).1 h
  calc p &&& rgbMask = p &&& rgbMask ||| p &&& 0x8000 := by rw [noAlpha]; exact BitVec.or_zero.symm
    _ = p := by rw [← BitVec.and_or_distrib_left, complement, BitVec.and_allOnes]

/-! ### Rows that a row command leaves as they are -/

/-- CIA changes no pixel where every source element with alpha stands in the destination already. -/
theorem samePixels_ciaRow_of_composited {m : Memory} {dst src : Word} {n : Nat}
    (h : ∀ i < n, alphaTest (readPixel m (elementAddr src i)) = true →
      readPixel m (elementAddr dst i) = readPixel m (elementAddr src i)) : SamePixels (ciaRow m dst src n) m := by
  induction n with
  | zero => exact fun _ => rfl
  | succ n ih =>
    have element : SamePixels (ciaElement m dst src n) m := by
      rw [ciaElement]
      split
      case isTrue alpha => exact samePixels_writePixel_self (h n n.lt_succ_self alpha)
      case isFalse => exact fun _ => rfl
    exact ((ih fun i hi => h i (Nat.lt_succ_of_lt hi)).ciaElement_congr dst src n).trans element

/-- MCC changes no pixel of a row whose elements have no alpha. -/
theorem samePixels_mccRow_of_masked {m : Memory} {buf : Word} {n : Nat}
    (h : ∀ i < n, alphaTest (readPixel m (elementAddr buf i)) = false) : SamePixels (mccRow m buf n) m := by
  induction n with
  | zero => exact fun _ => rfl
  | succ n ih =>
    have element : SamePixels (mccElement m buf n) m :=
      samePixels_writePixel_self (and_rgbMask_of_alphaTest (h n n.lt_succ_self)).symm
    exact ((ih fun i hi => h i (Nat.lt_succ_of_lt hi)).mccElement_congr buf n).trans element

/-- After MCC no element of its row has alpha. -/
theorem alphaTest_mccRow (m : Memory) (buf : Word) {n i : Nat} (hn : n ≤ 2 ^ 32) (hi : i < n) :
    alphaTest (readPixel (mccRow m buf n) (elementAddr buf i)) = false := by
  rw [readPixel_mccRow m buf n i hn hi, alphaTest_masked]

/-- After CIA every source element with alpha stands in the destination: its row is the destination itself, or CIA has left
it alone and copied the element. -/
theorem composited_ciaRow (m : Memory) {dst src : Word} {n i : Nat} (hn : n ≤ 2 ^ 32) (hi : i < n)
    (rows : dst = src ∨ ∀ j k, j < n → k < n → elementAddr dst j ≠ elementAddr src k)
    (alpha : alphaTest (readPixel (ciaRow m dst src n) (elementAddr src i)) = true) :
    readPixel (ciaRow m dst src n) (elementAddr dst i) = readPixel (ciaRow m dst src n) (elementAddr src i) := by
  obtain rfl | apart := rows
  · rfl
  have srcKept : readPixel (ciaRow m dst src n) (elementAddr src i) = readPixel m (elementAddr src i) :=
    readPixel_ciaRow_outside _ _ _ _ _ fun j hj => (apart j i hj hi).symm
  rw [srcKept] at alpha ⊢
  rw [readPixel_ciaRow m dst src n i hn hi (.inr apart), if_pos alpha]

/-! ### The commands -/

/-- Settles O8: the preconditions are those of `exec_cia_next_iff`, word by word, and the pixels are those of `ciaRow`. -/
theorem ciaCompositesTheDestinationRow : Obligations.CiaCompositesTheDestinationRow := by
  refine ⟨decode_encode .cia, fun s backed rows noRace => ?_⟩
  have defined : accessFault s (ciaAccess s.eng) = none := by
    refine (accessFault_none_words _ _).2 ⟨fun a accessed => ?_, fun f hf a => ⟨fun written => ?_, fun read => ?_⟩⟩
    · obtain ⟨i, hi, rfl⟩ | ⟨i, hi, rfl⟩ := ciaAccess_words accessed
      · exact (backed i hi).1
      · exact (backed i hi).2
    · obtain ⟨i, hi, rfl⟩ := (ciaAccess_writesWord _ _).1 written
      exact (noRace f hf i hi).imp_right And.left
    · obtain ⟨i, hi, rfl⟩ | ⟨i, hi, rfl⟩ := (ciaAccess_readsWord _ _).1 read
      · obtain ⟨-, -, srcUnwritten⟩ := noRace f hf i hi
        exact srcUnwritten
      · obtain ⟨-, dstUnwritten, -⟩ := noRace f hf i hi
        exact dstUnwritten
  refine ⟨_, (exec_cia_next_iff _ _).2 ⟨(ciaRows_compatible_iff _).2 rows, defined, rfl⟩, fun i hi => ?_,
    fun a => readPixel_ciaRow_outside _ _ _ _ _⟩
  rw [readPixel_ciaRow _ _ _ _ _ s.eng.cnt.isLt.le hi rows]
  simp only [alphaTest_eq_true_iff]

/-- Settles O9: the preconditions are those of `exec_mcc_next_iff`, word by word, and the pixels are those of `mccRow`. -/
theorem mccMasksTheRow : Obligations.MccMasksTheRow := by
  refine ⟨decode_encode .mcc, fun s backed noRace => ?_⟩
  have defined : accessFault s (mccAccess s.eng) = none := by
    refine (accessFault_none_words _ _).2 ⟨fun a accessed => ?_, fun f hf a => ⟨fun written => ?_, fun read => ?_⟩⟩
    · obtain ⟨i, hi, rfl⟩ := mccAccess_words accessed
      exact backed i hi
    · obtain ⟨i, hi, rfl⟩ := (mccAccess_writesWord _ _).1 written
      exact noRace f hf i hi
    · obtain ⟨i, hi, rfl⟩ := (mccAccess_readsWord _ _).1 read
      exact (noRace f hf i hi).2
  refine ⟨_, (exec_mcc_next_iff _ _).2 ⟨defined, rfl⟩, fun i hi => ?_, fun a => readPixel_mccRow_outside _ _ _ _⟩
  rw [readPixel_mccRow _ _ _ _ s.eng.cnt.isLt.le hi, rgbMask_eq]

/-- Settles O10: the second CIA finds the registers of the first and a row already composited. -/
theorem ciaTwiceIsCiaOnce : Obligations.CiaTwiceIsCiaOnce := by
  intro s t h
  obtain ⟨rows, -, rfl⟩ := (exec_cia_next_iff s t).1 h
  refine ⟨_, exec_cia_of_regs h (fun _ _ => rfl) (accessFault_congr _ rfl rfl).trans, rfl,
    samePixels_ciaRow_of_composited fun i hi => ?_⟩
  exact composited_ciaRow s.mem s.eng.cnt.isLt.le hi ((ciaRows_compatible_iff _).1 rows)

/-- Settles O11: both halves are `samePixels_mccRow_of_masked`, since MCC itself leaves a masked row. -/
theorem mccIsIdempotent : Obligations.MccIsIdempotent := by
  refine ⟨fun s t h => ?_, fun s t h masked => ?_⟩
  · obtain ⟨-, rfl⟩ := (exec_mcc_next_iff s t).1 h
    exact ⟨_, exec_mcc_of_regs h (fun _ _ => rfl) (accessFault_congr _ rfl rfl).trans,
      samePixels_mccRow_of_masked fun i => alphaTest_mccRow s.mem s.eng.dst s.eng.cnt.isLt.le⟩
  · obtain ⟨-, rfl⟩ := (exec_mcc_next_iff s t).1 h
    exact samePixels_mccRow_of_masked fun i hi => (alphaTest_eq_false_iff _).2 (masked i hi)

/-- Settles O12: no source element has alpha, so there is none that CIA would copy. -/
theorem maskedRowAsSourceChangesNothing : Obligations.MaskedRowAsSourceChangesNothing := by
  intro s t u dst hMcc hCia
  obtain ⟨-, rfl⟩ := (exec_mcc_next_iff s t).1 hMcc
  obtain ⟨-, -, rfl⟩ := (exec_cia_next_iff _ u).1 hCia
  refine samePixels_ciaRow_of_composited fun i hi alpha => ?_
  exact absurd alpha (Bool.eq_false_iff.1 <| alphaTest_mccRow s.mem s.eng.dst s.eng.cnt.isLt.le hi)

end Sys2Proof.Machine
end

section
/-! The lane-wise datapath (41_compositor.md R93). A group of lanes leaves the pixels of that many element steps, because
no lane of a group reads a word that another lane of it stores; groups and remainder then make up the row. -/

namespace Sys2Proof.Machine

/-- A row of values leaves the pixels of any memory that holds them in the row and is unchanged outside it. -/
theorem samePixels_writeRow {m m' : Memory} {base : Word} {vs : List Pixel} (short : vs.length ≤ 2 ^ 32)
    (inside : ∀ i (h : i < vs.length), readPixel m' (elementAddr base i) = vs[i])
    (outside : ∀ a, (∀ i < vs.length, a ≠ elementAddr base i) → readPixel m' a = readPixel m a) :
    SamePixels (writeRow m base vs) m' := by
  intro a
  by_cases inRow : ∃ i < vs.length, a = elementAddr base i
  · obtain ⟨i, hi, rfl⟩ := inRow
    rw [readPixel_writeRow vs m base i short hi, inside i hi]
  · have notInRow : ∀ i < vs.length, a ≠ elementAddr base i := fun i hi eq => inRow ⟨i, hi, eq⟩
    rw [readPixel_writeRow_outside vs m base a notInRow, outside a notInRow]

/-! ### CIA -/

/-- Elements from `start` on are a row of their own, at the addresses of element `start`. -/
theorem ciaTail_eq_ciaRow (m : Memory) (dst src : Word) (start k : Nat) :
    ciaTail m dst src start k = ciaRow m (elementAddr dst start) (elementAddr src start) k := by
  induction k with
  | zero => rfl
  | succ k ih => simp only [ciaTail, ciaRow, ciaElement, ih, elementAddr_add]

/-- A part of two rows that are the same or apart is the same or apart (20_memory.md R56). -/
theorem rows_part {dst src : Word} {n start k : Nat} (hk : start + k ≤ n)
    (rows : dst = src ∨ ∀ i j, i < n → j < n → elementAddr dst i ≠ elementAddr src j) :
    elementAddr dst start = elementAddr src start ∨
      ∀ i j, i < k → j < k → elementAddr (elementAddr dst start) i ≠ elementAddr (elementAddr src start) j := by
  refine rows.imp (congrArg (elementAddr · start)) fun apart i j hi hj => ?_
  rw [elementAddr_add, elementAddr_add]
  exact apart _ _ (by omega) (by omega)

theorem samePixels_ciaGroup (m : Memory) {dst src : Word} {n start : Nat} (hk : start + Config.lanes ≤ n)
    (rows : dst = src ∨ ∀ i j, i < n → j < n → elementAddr dst i ≠ elementAddr src j) :
    SamePixels (ciaGroup m dst src start) (ciaTail m dst src start Config.lanes) := by
  rw [ciaTail_eq_ciaRow]
  refine samePixels_writeRow (by simp [Config.lanes]) (fun j hj => ?_) fun a outside => ?_
  · have hj : j < Config.lanes := by simpa using hj
    rw [readPixel_ciaRow _ _ _ _ _ (by simp [Config.lanes]) hj (rows_part hk rows)]
    simp [ciaLane, alphaTest, elementAddr_add]
  · exact readPixel_ciaRow_outside _ _ _ _ _ (by simpa using outside)

/-- Element steps from `start` on complete the first `start` elements to a longer row. -/
theorem samePixels_ciaTail {m m' : Memory} {dst src : Word} {start : Nat} (h : SamePixels m' (ciaRow m dst src start))
    (k : Nat) : SamePixels (ciaTail m' dst src start k) (ciaRow m dst src (start + k)) := by
  induction k with
  | zero => exact h
  | succ k ih => exact ih.ciaElement_congr dst src (start + k)

theorem samePixels_ciaGroups (m : Memory) {dst src : Word} {n g : Nat} (hg : Config.lanes * g ≤ n)
    (rows : dst = src ∨ ∀ i j, i < n → j < n → elementAddr dst i ≠ elementAddr src j) :
    SamePixels (ciaGroups m dst src g) (ciaRow m dst src (Config.lanes * g)) := by
  induction g with
  | zero => exact fun _ => rfl
  | succ g ih =>
    rw [Nat.mul_succ] at hg
    exact (samePixels_ciaGroup _ hg rows).trans (samePixels_ciaTail (ih (by omega)) Config.lanes)

/-- Settles O13: the groups are the row up to their end, and the remainder completes it. -/
theorem ciaLaneGroupsMatchTheElementRule : Obligations.CiaLaneGroupsMatchTheElementRule := by
  intro m dst src n _ rows
  have groups := samePixels_ciaGroups m (Nat.mul_div_le n Config.lanes) rows
  have whole := samePixels_ciaTail groups (n % Config.lanes)
  rwa [Nat.div_add_mod] at whole

/-! ### MCC -/

theorem mccTail_eq_mccRow (m : Memory) (buf : Word) (start k : Nat) :
    mccTail m buf start k = mccRow m (elementAddr buf start) k := by
  induction k with
  | zero => rfl
  | succ k ih => simp only [mccTail, mccRow, mccElement, ih, elementAddr_add]

theorem samePixels_mccGroup (m : Memory) (buf : Word) (start : Nat) :
    SamePixels (mccGroup m buf start) (mccTail m buf start Config.lanes) := by
  rw [mccTail_eq_mccRow]
  refine samePixels_writeRow (by simp [Config.lanes]) (fun j hj => ?_) fun a outside => ?_
  · have hj : j < Config.lanes := by simpa using hj
    rw [readPixel_mccRow _ _ _ _ (by simp [Config.lanes]) hj]
    simp [mccLane, elementAddr_add]
  · exact readPixel_mccRow_outside _ _ _ _ (by simpa using outside)

theorem samePixels_mccTail {m m' : Memory} {buf : Word} {start : Nat} (h : SamePixels m' (mccRow m buf start)) (k : Nat) :
    SamePixels (mccTail m' buf start k) (mccRow m buf (start + k)) := by
  induction k with
  | zero => exact h
  | succ k ih => exact ih.mccElement_congr buf (start + k)

theorem samePixels_mccGroups (m : Memory) (buf : Word) (g : Nat) :
    SamePixels (mccGroups m buf g) (mccRow m buf (Config.lanes * g)) := by
  induction g with
  | zero => exact fun _ => rfl
  | succ g ih => exact (samePixels_mccGroup _ buf _).trans (samePixels_mccTail ih Config.lanes)

/-- Settles O14: the groups are the row up to their end, and the remainder completes it. -/
theorem mccLaneGroupsMatchTheElementRule : Obligations.MccLaneGroupsMatchTheElementRule := by
  intro m buf n _
  have whole := samePixels_mccTail (samePixels_mccGroups m buf (n / Config.lanes)) (n % Config.lanes)
  rwa [Nat.div_add_mod] at whole

end Sys2Proof.Machine
end

section
/-! The Geometry unit (42_geometry.md). The rectangle RINT stores is the intersection over the integers itself, since
that fits the registers; so what RINT guarantees is what `Rect.intersect` does. -/

namespace Sys2Proof.Machine

/-! ### Points: arithmetic (R102 to R105) -/

/-- Settles O18: PADD is `engineAfter .padd`. -/
theorem paddAddsComponentWise : Obligations.PaddAddsComponentWise :=
  ⟨decode_encode .padd, fun s => exec_eq_engineAfter s (by decide) (by decide)⟩

/-- Settles O19: PSUB is `engineAfter .psub`. -/
theorem psubSubtractsBFromA : Obligations.PsubSubtractsBFromA :=
  ⟨decode_encode .psub, fun s => exec_eq_engineAfter s (by decide) (by decide)⟩

/-- Settles O20: PMUL is `engineAfter .pmul`. -/
theorem pmulScalesByTheScalar : Obligations.PmulScalesByTheScalar :=
  ⟨decode_encode .pmul, fun s => exec_eq_engineAfter s (by decide) (by decide)⟩

theorem engineAfter_pdiv_zero {e : Engine} (h : e.sc = 0) :
    engineAfter .pdiv e = { e with err := .divZero, ecmd := encode .pdiv } :=
  if_pos ((toInt_eq_zero_iff _).2 h)

theorem engineAfter_pdiv_nonzero {e : Engine} (h : e.sc ≠ 0) :
    engineAfter .pdiv e = setQPoint e ⟨e.aX.toInt.tdiv e.sc.toInt, e.aY.toInt.tdiv e.sc.toInt⟩ := by
  rw [← truncDiv_eq_tdiv, ← truncDiv_eq_tdiv]
  exact if_neg fun h0 => h ((toInt_eq_zero_iff _).1 h0)

/-- Settles O21: the scalar is 0 iff SC is, and otherwise `truncDiv` is Lean's own truncating division. -/
theorem pdivDividesTruncatingOrRaisesDivZero : Obligations.PdivDividesTruncatingOrRaisesDivZero := by
  refine ⟨decode_encode .pdiv, fun s zero => ?_, fun s nonzero => ?_⟩
  · rw [exec_eq_engineAfter s (by decide) (by decide), engineAfter_pdiv_zero zero]
    rfl
  · rw [exec_eq_engineAfter s (by decide) (by decide), engineAfter_pdiv_nonzero nonzero]
    rfl

/-! ### Points: the order (R106) -/

/-- The key is the concatenation of the two registers, read as one signed number. -/
theorem toInt_append_eq_pointKey (x y : Word) : (x ++ y : BitVec 64).toInt = pointKey x y := by
  rw [BitVec.toInt_append, if_neg (by decide), pointKey, signed, unsigned, Int.mul_comm]

/-- Keys compare by x as signed first, then by y as unsigned, because y does not reach the bits of x. -/
theorem pointKey_lt_iff (x y x' y' : Word) :
    pointKey x y < pointKey x' y' ↔ x.toInt < x'.toInt ∨ (x.toInt = x'.toInt ∧ y.toNat < y'.toNat) := by
  have yLt := y.isLt
  have yLt' := y'.isLt
  simp only [pointKey, signed, unsigned]
  omega

theorem pointLess_iff (x y x' y' : Word) : pointLess x y x' y' = true ↔ pointKey x y < pointKey x' y' := by
  simp [pointLess]

theorem pointKey_inj {x y x' y' : Word} (h : pointKey x y = pointKey x' y') : x = x' ∧ y = y' := by
  have lt := pointKey_lt_iff x y x' y'
  have gt := pointKey_lt_iff x' y' x y
  exact ⟨BitVec.eq_of_toInt_eq (by omega), BitVec.eq_of_toNat_eq (by omega)⟩

/-- Settles O22: the key of the model is the number the statement compares. -/
theorem pltComparesThePackedKeys : Obligations.PltComparesThePackedKeys := by
  refine ⟨decode_encode .plt, fun s => ?_⟩
  simp only [toInt_append_eq_pointKey]
  exact ⟨exec_eq_engineAfter s (by decide) (by decide), pointKey_lt_iff _ _ _ _⟩

/-- Settles O23: the order is that of the keys, and no two points have the same key. -/
theorem pointOrderIsAStrictTotalOrder : Obligations.PointOrderIsAStrictTotalOrder := by
  refine ⟨fun x y => ?_, fun x y x' y' x'' y'' less less' => ?_, fun x y x' y' => ?_⟩
  · simp [pointLess]
  · rw [pointLess_iff] at *
    exact less.trans less'
  · simp only [pointLess_iff]
    exact (lt_trichotomy (pointKey x y) (pointKey x' y')).imp_right (Or.imp_left pointKey_inj)

/-! ### Rectangles: translation (R107, R108, R111) -/

/-- A translation stores the new origin and the width and height registers as they are. -/
theorem setQRect_moveTo (e : Engine) (p : Point) :
    setQRect e ((rectA e).moveTo p) = { e with qX := wrap32 p.x, qY := wrap32 p.y, qW := e.aW, qH := e.aH } := by
  simp [setQRect, Rect.moveTo, rectA]

/-- Settles O24: RADD is `engineAfter .radd`, a translation. -/
theorem raddMovesTheOriginByPlusB : Obligations.RaddMovesTheOriginByPlusB := by
  refine ⟨decode_encode .radd, fun s => ?_⟩
  rw [exec_eq_engineAfter s (by decide) (by decide), engineAfter, setQRect_moveTo]
  rfl

/-- Settles O25: RSUB is `engineAfter .rsub`, a translation. -/
theorem rsubMovesTheOriginByMinusB : Obligations.RsubMovesTheOriginByMinusB := by
  refine ⟨decode_encode .rsub, fun s => ?_⟩
  rw [exec_eq_engineAfter s (by decide) (by decide), engineAfter, setQRect_moveTo]
  rfl

/-- The stored sum is the sum modulo 2^32 of the two registers (R111). -/
theorem wrap32_signed_add (a b : Word) : wrap32 (signed a + signed b) = a + b := by
  simp [wrap32, signed, BitVec.ofInt_add]

theorem wrap32_signed_sub (a b : Word) : wrap32 (signed a - signed b) = a - b := by
  simp [wrap32, signed, Int.sub_eq_add_neg, BitVec.ofInt_add, BitVec.ofInt_neg, ← BitVec.sub_eq_add_neg]

/-- Subtraction undoes addition, also where the sum wraps. -/
theorem wrap32_add_sub_cancel (a b : Word) : wrap32 (signed (wrap32 (signed a + signed b)) - signed b) = a := by
  rw [wrap32_signed_add, wrap32_signed_sub, BitVec.add_sub_cancel]

/-- Settles O60: the two translations cancel, and neither touches width or height. -/
theorem rsubUndoesRadd : Obligations.RsubUndoesRadd := by
  intro s t h
  rw [raddMovesTheOriginByPlusB.2] at h
  cases h
  exact ⟨_, rsubMovesTheOriginByMinusB.2 _, wrap32_add_sub_cancel _ _, wrap32_add_sub_cancel _ _, rfl, rfl⟩

/-! ### Rectangles: RTST (R110) -/

/-- Settles O31: RTST is `engineAfter .rtst`. -/
theorem rtstSetsTIffAIsNonEmpty : Obligations.RtstSetsTIffAIsNonEmpty :=
  ⟨decode_encode .rtst, fun s => exec_eq_engineAfter s (by decide) (by decide)⟩

/-! ### Rectangles: the intersection over the integers (R101, R109) -/

/-- An integer point lies in a rectangle: its bounds are half-open (R101). -/
def Rect.contains (r : Rect) (px py : Int) : Prop :=
  r.x ≤ px ∧ px < r.x + r.w ∧ r.y ≤ py ∧ py < r.y + r.h

/-- The four fields fit a register. -/
def Rect.fits (r : Rect) : Prop :=
  (-2 ^ 31 ≤ r.x ∧ r.x < 2 ^ 31) ∧ (-2 ^ 31 ≤ r.y ∧ r.y < 2 ^ 31) ∧
    (-2 ^ 31 ≤ r.w ∧ r.w < 2 ^ 31) ∧ (-2 ^ 31 ≤ r.h ∧ r.h < 2 ^ 31)

theorem rectTruth_iff (r : Rect) : rectTruth r = true ↔ 0 < r.w ∧ 0 < r.h := by simp [rectTruth]

/-- The rectangle between the inner bounds of two; an extent of it may be negative. -/
def Rect.overlap (a b : Rect) : Rect :=
  ⟨max a.x b.x, max a.y b.y, min (a.x + a.w) (b.x + b.w) - max a.x b.x, min (a.y + a.h) (b.y + b.h) - max a.y b.y⟩

/-- Everything an intersection can be. -/
theorem Rect.intersect_cases (a b : Rect) :
    (((a.overlap b).w ≤ 0 ∨ (a.overlap b).h ≤ 0) ∧ a.intersect b = Rect.canonicalEmpty) ∨
      ((0 < (a.overlap b).w ∧ 0 < (a.overlap b).h) ∧ a.intersect b = a.overlap b) := by
  by_cases empty : (a.overlap b).w ≤ 0 ∨ (a.overlap b).h ≤ 0
  · exact .inl ⟨empty, if_pos empty⟩
  · exact .inr ⟨by omega, if_neg empty⟩

theorem Rect.intersect_comm (a b : Rect) : a.intersect b = b.intersect a := by
  simp only [Rect.intersect, max_comm a.x, max_comm a.y, min_comm (a.x + a.w), min_comm (a.y + a.h)]

theorem Rect.overlap_self (r : Rect) : r.overlap r = r := by
  simp only [Rect.overlap, min_self, max_self, add_sub_cancel_left]

theorem Rect.intersect_self {r : Rect} (h : rectTruth r = true) : r.intersect r = r := by
  rw [rectTruth_iff] at h
  obtain ⟨empty, -⟩ | ⟨-, eq⟩ := r.intersect_cases r
  · rw [Rect.overlap_self] at empty
    omega
  · rw [eq, Rect.overlap_self]

theorem Rect.intersect_of_empty {a b : Rect} (h : rectTruth a = false ∨ rectTruth b = false) :
    a.intersect b = Rect.canonicalEmpty := by
  simp only [← Bool.not_eq_true, rectTruth_iff] at h
  obtain ⟨-, eq⟩ | ⟨nonempty, -⟩ := a.intersect_cases b
  · exact eq
  · simp only [Rect.overlap] at nonempty
    omega

/-- The intersection needs no more bits than its operands: a positive extent is no greater than theirs. -/
theorem Rect.intersect_fits {a b : Rect} (ha : a.fits) (hb : b.fits) : (a.intersect b).fits := by
  unfold Rect.fits at ha hb
  obtain ⟨-, eq⟩ | ⟨nonempty, eq⟩ := a.intersect_cases b <;> rw [eq]
  · simp [Rect.fits, Rect.canonicalEmpty]
  · simp only [Rect.fits, Rect.overlap] at nonempty ⊢
    omega

/-- The points of the intersection are the common points, also where there are none. -/
theorem Rect.contains_intersect_iff (a b : Rect) (px py : Int) :
    (a.intersect b).contains px py ↔ a.contains px py ∧ b.contains px py := by
  unfold Rect.contains
  obtain ⟨empty, eq⟩ | ⟨-, eq⟩ := a.intersect_cases b <;> rw [eq]
  · simp only [Rect.canonicalEmpty, Rect.overlap] at empty ⊢
    omega
  · simp only [Rect.overlap]
    omega

/-- A non-empty intersection is no wider or higher than either rectangle. -/
theorem Rect.intersect_extents_le {a b : Rect} (h : rectTruth (a.intersect b) = true) :
    (a.intersect b).w ≤ a.w ∧ (a.intersect b).w ≤ b.w ∧ (a.intersect b).h ≤ a.h ∧ (a.intersect b).h ≤ b.h := by
  obtain ⟨-, eq⟩ | ⟨-, eq⟩ := a.intersect_cases b <;> rw [eq] at h ⊢
  · cases h
  · simp only [Rect.overlap]
    omega

/-- An intersection has no negative extent, and each of its extents is 0 iff it is empty. -/
theorem Rect.intersect_extents_nonneg (a b : Rect) :
    0 ≤ (a.intersect b).w ∧ 0 ≤ (a.intersect b).h ∧
      ((a.intersect b).w = 0 ↔ rectTruth (a.intersect b) = false) ∧
      ((a.intersect b).h = 0 ↔ rectTruth (a.intersect b) = false) := by
  simp only [← Bool.not_eq_true, rectTruth_iff]
  obtain ⟨-, eq⟩ | ⟨nonempty, eq⟩ := a.intersect_cases b <;> rw [eq]
  · simp [Rect.canonicalEmpty]
  · omega

/-! ### Rectangles: RINT (R109, R113) -/

/-- The result registers read as a rectangle. -/
def rectQ (e : Engine) : Rect := ⟨signed e.qX, signed e.qY, signed e.qW, signed e.qH⟩

theorem signed_fits (w : Word) : -2 ^ 31 ≤ signed w ∧ signed w < 2 ^ 31 := ⟨w.le_toInt, w.toInt_lt⟩

theorem rectA_fits (e : Engine) : (rectA e).fits := ⟨signed_fits _, signed_fits _, signed_fits _, signed_fits _⟩

theorem rectB_fits (e : Engine) : (rectB e).fits := ⟨signed_fits _, signed_fits _, signed_fits _, signed_fits _⟩

/-- A rectangle that fits the registers is stored without a reduction (R111). -/
theorem rectQ_setQRect (e : Engine) {r : Rect} (h : r.fits) : rectQ (setQRect e r) = r := by
  obtain ⟨⟨xLow, xHigh⟩, ⟨yLow, yHigh⟩, ⟨wLow, wHigh⟩, hLow, hHigh⟩ := h
  simp only [rectQ, setQRect, signed, toInt_wrap32 xLow xHigh, toInt_wrap32 yLow yHigh, toInt_wrap32 wLow wHigh,
    toInt_wrap32 hLow hHigh]

/-- After RINT, Q is the intersection over the integers. -/
theorem rectQ_engineAfter_rint (e : Engine) : rectQ (engineAfter .rint e) = (rectA e).intersect (rectB e) :=
  rectQ_setQRect e (Rect.intersect_fits (rectA_fits e) (rectB_fits e))

/-- T after RINT says whether Q is non-empty. -/
theorem engineAfter_rint_t (e : Engine) : (engineAfter .rint e).t = rectTruth (rectQ (engineAfter .rint e)) := by
  rw [rectQ_engineAfter_rint]
  rfl

theorem exec_rint_of_empty {s : State} (h : (rectA s.eng).intersect (rectB s.eng) = Rect.canonicalEmpty) :
    exec .rint s = .next { s with eng := { s.eng with qX := 0, qY := 0, qW := 0, qH := 0, t := false } } := by
  rw [exec_eq_engineAfter s (by decide) (by decide), engineAfter, h]
  rfl

/-- Settles O26: Q is the intersection, which is the canonical empty rectangle or the overlap. -/
theorem rintComputesTheIntersectionExactly : Obligations.RintComputesTheIntersectionExactly := by
  refine ⟨decode_encode .rint, fun s => ?_⟩
  obtain ⟨empty, eq⟩ | ⟨nonempty, eq⟩ := (rectA s.eng).intersect_cases (rectB s.eng)
  · exact ⟨fun _ => exec_rint_of_empty eq, fun ⟨width, height⟩ => (empty.elim width.not_ge height.not_ge).elim⟩
  · obtain ⟨width, height⟩ := nonempty
    refine ⟨fun empty => (empty.elim width.not_ge height.not_ge).elim, fun _ => ?_⟩
    have truth : rectTruth ((rectA s.eng).intersect (rectB s.eng)) = true :=
      eq ▸ (rectTruth_iff _).2 ⟨width, height⟩
    obtain ⟨qX, qY, qW, qH⟩ := Rect.mk.inj ((rectQ_engineAfter_rint s.eng).trans eq)
    refine ⟨_, _, _, _, ?_, qX, qY, qW, qH⟩
    rw [exec_eq_engineAfter s (by decide) (by decide), engineAfter, truth]
    rfl

/-- Settles O27: the exchange swaps the two rectangles, and intersection is commutative. -/
theorem rintIsCommutative : Obligations.RintIsCommutative := by
  intro s
  refine ⟨_, _, exec_eq_engineAfter s (by decide) (by decide), exec_eq_engineAfter _ (by decide) (by decide), ?_⟩
  simp only [engineAfter, Rect.intersect_comm (rectA s.eng)]
  exact ⟨rfl, rfl, rfl, rfl, rfl⟩

/-- Settles O28: `Rect.intersect_self` and `Rect.intersect_of_empty`, stored in Q. -/
theorem rintIsIdempotentAndAbsorbing : Obligations.RintIsIdempotentAndAbsorbing := by
  refine ⟨fun s width height bX bY bW bH => ?_, fun s empty => exec_rint_of_empty (Rect.intersect_of_empty ?_)⟩
  · have same : rectB s.eng = rectA s.eng := by simp only [rectA, rectB, bX, bY, bW, bH]
    have nonempty : rectTruth (rectA s.eng) = true := (rectTruth_iff _).2 ⟨width, height⟩
    rw [exec_eq_engineAfter s (by decide) (by decide), engineAfter, same, Rect.intersect_self nonempty, nonempty]
    simp only [setT, setQRect, rectA, wrap32_signed]
    rfl
  · simp only [← Bool.not_eq_true, rectTruth_iff, rectA, rectB, signed]
    omega

theorem toNat_eq_toInt_of_nonneg {w : Word} (h : 0 ≤ w.toInt) : (w.toNat : Int) = w.toInt := by
  have msb : w.msb = false := by simpa [BitVec.msb_eq_toInt] using h
  exact (BitVec.toInt_eq_toNat_of_msb msb).symm

/-- Settles O29: Q is the intersection, whose extents `Rect.intersect_extents_nonneg` bounds. -/
theorem rintNeverReturnsNegativeExtents : Obligations.RintNeverReturnsNegativeExtents := by
  intro s
  have extents := Rect.intersect_extents_nonneg (rectA s.eng) (rectB s.eng)
  rw [← rectQ_engineAfter_rint, ← engineAfter_rint_t] at extents
  obtain ⟨width, height, widthZero, heightZero⟩ := extents
  exact ⟨_, exec_eq_engineAfter s (by decide) (by decide), width, height, (toInt_eq_zero_iff _).symm.trans widthZero,
    (toInt_eq_zero_iff _).symm.trans heightZero, toNat_eq_toInt_of_nonneg width, toNat_eq_toInt_of_nonneg height⟩

/-- Settles O30: Q is the intersection, and its points are the common ones. -/
theorem rintCoversExactlyTheCommonPoints : Obligations.RintCoversExactlyTheCommonPoints := by
  intro s t h truth
  rw [exec_next_eng h] at truth ⊢
  have points := Rect.contains_intersect_iff (rectA s.eng) (rectB s.eng)
  rw [engineAfter_rint_t, rectQ_engineAfter_rint] at truth
  obtain ⟨wA, wB, hA, hB⟩ := Rect.intersect_extents_le truth
  rw [← rectQ_engineAfter_rint] at points wA wB hA hB
  exact ⟨points, wA, wB, hA, hB⟩

end Sys2Proof.Machine
end

section
/-! Errors and the halted state: what raises an error, what a halted engine still does, what each engine keeps for itself
(60_exceptions.md R121 to R132). -/

namespace Sys2Proof.Machine

/-! ### Raising an error -/

/-- The fourteen words of R62's table. -/
def tableWords : List Word :=
  [0x10, 0x11, 0x12, 0x20, 0x21, 0x30, 0x31, 0x32, 0x33, 0x34, 0x38, 0x39, 0x3A, 0x3B]

theorem encode_mem_tableWords (i : Instr) : encode i ∈ tableWords := by cases i <;> decide

theorem decode_error_of_notMem {w : Word} (h : w ∉ tableWords) : ∃ r, decode w = .error r := by
  cases decoded : decode w with
  | error r => exact ⟨r, rfl⟩
  | ok i => exact absurd (eq_encode_of_decode decoded ▸ encode_mem_tableWords i) h

/-- An engine that is not halted enters the error of an illegal word (60_exceptions.md R121, R128). -/
theorem commandWrite_illegal {s : State} {w : Word} {r : Reject} (noError : s.eng.err = .noError)
    (illegal : decode w = .error r) : commandWrite w s = .next (raiseError .illegalCmd w s) := by
  rw [commandWrite, (halted_eq_false_iff _).2 noError, illegal]
  rfl

/-- Of the fourteen commands only PDIV with SC = 0 records an error (60_exceptions.md R122, R123). -/
theorem engineAfter_err_ecmd {i : Instr} {e : Engine} (h : ¬(i = .pdiv ∧ e.sc = 0)) :
    (engineAfter i e).err = e.err ∧ (engineAfter i e).ecmd = e.ecmd := by
  cases i
  case pdiv =>
    rw [engineAfter_pdiv_nonzero fun zero => h ⟨rfl, zero⟩]
    exact ⟨rfl, rfl⟩
  all_goals exact ⟨rfl, rfl⟩

/-- Settles O33: the registers are those `engineAfter` gives. -/
theorem onlyPdivByZeroRecordsAnError : Obligations.OnlyPdivByZeroRecordsAnError := by
  intro i s t run noZeroDivision
  rw [exec_next_eng run]
  exact engineAfter_err_ecmd noZeroDivision

/-- Settles O3: an illegal word is what the decoder rejects, and the one error a command records is DIV_ZERO. -/
theorem illegalWordRaisesIllegalCmd : Obligations.IllegalWordRaisesIllegalCmd := by
  constructor
  · intro s w noError notInTable
    obtain ⟨r, illegal⟩ := decode_error_of_notMem notInTable
    exact commandWrite_illegal noError illegal
  · intro i s t notIllegal run
    by_cases zeroDivision : i = .pdiv ∧ s.eng.sc = 0
    · obtain ⟨rfl, zero⟩ := zeroDivision
      rw [exec_next_eng run, engineAfter_pdiv_zero zero]
      exact nofun
    · obtain ⟨err, -⟩ := onlyPdivByZeroRecordsAnError i s t run zeroDivision
      rwa [err]

/-! ### The halted state -/

/-- A halted engine ignores a CMD write whole (60_exceptions.md R126). -/
theorem commandWrite_halted {s : State} (w : Word) (halted : s.eng.err ≠ .noError) : commandWrite w s = .next s :=
  if_pos ((halted_iff _).2 halted)

/-- Settles O37: the halted check stands before a CMD write only. -/
theorem haltedEngineIgnoresCommandWrites : Obligations.HaltedEngineIgnoresCommandWrites := by
  intro s halted
  exact ⟨fun w => commandWrite_halted w halted, fun r v notCmd => registerWrite_regNumber s v notCmd, fun n => rfl⟩

/-- A host write changes no read-only register, whichever register it names. -/
theorem readReg_writeReg_readOnly (e : Engine) (r : Reg) (v : Word) {r' : Reg} (h : r' ∈ readOnlyRegs) :
    readReg (writeReg e r v) r' = readReg e r' := by
  by_cases same : r' = r
  · subst same
    rw [writeReg_readOnly e v h]
  · exact readReg_writeReg_other e v same

/-- All that can happen to a halted engine: its reset, or a host write to one of its registers. -/
theorem EngineMove.of_halted {k : Nat} {ev : Event} {e e' : Engine} (h : EngineMove k ev e e')
    (halted : e.err ≠ .noError) : ev = .reset k ∨ e' = e ∨ ∃ r v, e' = writeReg e r v := by
  cases h with
  | keep => exact .inr (.inl rfl)
  | register v => exact .inr (.inr ⟨_, v, rfl⟩)
  | reset => exact .inl rfl
  | command cmd run =>
    rw [commandWrite_halted _ halted] at run
    cases run
    exact .inr (.inl rfl)

/-- Settles O38: what is left to a halted engine but its reset are host writes, which reach no register named here. -/
theorem onlyResetLeavesTheHaltedState : Obligations.OnlyResetLeavesTheHaltedState := by
  intro s t k e h he halted
  obtain ⟨-, rfl⟩ | ⟨ev, rest, script, transition⟩ := step_next_cases h
  · exact .inr ⟨e, he, rfl, rfl, rfl, rfl, rfl, rfl, rfl, rfl⟩
  obtain ⟨e', he', move⟩ := transition.engineMove he
  obtain rfl | rfl | ⟨r, v, rfl⟩ := move.of_halted halted
  · exact .inl ⟨rest, script⟩
  · exact .inr ⟨_, he', rfl, rfl, rfl, rfl, rfl, rfl, rfl, rfl⟩
  · have kept (r' : Reg) (readOnly : r' ∈ readOnlyRegs) := readReg_writeReg_readOnly e r v readOnly
    exact .inr ⟨_, he', writeReg_err e r v, writeReg_ecmd e r v, writeReg_t e r v, kept .uc (by decide),
      kept .qX (by decide), kept .qY (by decide), kept .qW (by decide), kept .qH (by decide)⟩

/-! ### The engines side by side, and the idle machine -/

/-- No transaction changes the backing (20_memory.md R47). -/
theorem Transition.backed {s t : State} {ev : Event} (h : Transition s ev t) : t.backed = s.backed := by
  cases h with
  | writeReg _ window | writeReserved _ window | read _ window | reset _ window =>
    obtain ⟨-, -, -, -, backed, -⟩ := focus_some window
    exact backed
  | writeCmd _ window run | beginCmd _ window run =>
    obtain ⟨-, -, -, -, backed, -⟩ := focus_some window
    obtain ⟨-, -, backed', -⟩ := commandWrite_next_env run
    exact backed'.trans backed
  | endCmd | pmWrite | pmRead => rfl

/-- Settles O53: the step is the transaction, and taking it off the script changes none of this. -/
theorem enginesShareNothingButPixelMemory : Obligations.EnginesShareNothingButPixelMemory := by
  intro s t ev rest script h
  rw [step_cons script] at h
  have transition := transition_of_perform h
  exact ⟨fun k other => transition.engines_other other, transition.engines_length, transition.backed⟩

/-- Settles O49. -/
theorem idleMachineKeepsItsState : Obligations.IdleMachineKeepsItsState := fun _ => step_empty

end Sys2Proof.Machine
end

section
/-! Reset, and that every command ends (70_reset_and_hazards.md R140 to R143, R153). -/

namespace Sys2Proof.Machine

/-! ### Every command ends -/

/-- CIA and MCC complete or fault, and the other commands complete: nothing is refused (70_reset_and_hazards.md R153). -/
theorem exec_ne_refused (i : Instr) (s : State) (r : Refusal) : exec i s ≠ .refused r := by
  cases i
  case cia =>
    by_cases defined : rowsCompatible (dstRow s.eng) (srcRow s.eng) = true ∧ accessFault s (ciaAccess s.eng) = none
    · rw [(exec_cia_next_iff s _).2 ⟨defined.1, defined.2, rfl⟩]
      exact nofun
    · obtain ⟨f, faulted⟩ := exec_cia_fault ((not_and_or.1 defined).imp_left Bool.eq_false_iff.2)
      rw [faulted]
      exact nofun
  case mcc =>
    by_cases defined : accessFault s (mccAccess s.eng) = none
    · rw [(exec_mcc_next_iff s _).2 ⟨defined, rfl⟩]
      exact nofun
    · obtain ⟨f, faulted⟩ := exec_mcc_fault defined
      rw [faulted]
      exact nofun
  all_goals
    rw [exec_eq_engineAfter s (by decide) (by decide)]
    exact nofun

/-- Settles O32: a row command completes or faults, and every other command ends as `exec_eq_engineAfter` says. -/
theorem everyCommandEnds : Obligations.EveryCommandEnds :=
  ⟨exec_ne_refused, fun _ s hc hm => ⟨_, exec_eq_engineAfter s hc hm⟩⟩

/-! ### Reset of one engine -/

/-- A reset of a free window is `resetEngine` at its engine. -/
theorem perform_reset {s s₁ : State} {k : Nat} (free : s.busy k = false) (window : s.focus k = some s₁) :
    perform (.reset k) s = .next (resetEngine s₁) :=
  onWindow_free _ free window

/-- Settles O45: the engine addressed is the one at its reset values, and a transaction moves no other engine. -/
theorem resetZeroesOneEngineOnly : Obligations.ResetZeroesOneEngineOnly := by
  intro s s₁ k free window
  have run := perform_reset free window
  obtain ⟨-, -, -, mem, -⟩ := focus_some window
  refine ⟨resetEngine s₁, run, readNumber_atReset, rfl, mem, fun j other => ?_⟩
  exact (transition_of_perform run).engines_other fun same => other (Option.some.inj same).symm

/-! ### Commands on the reset state -/

/-- A command other than CIA and MCC that keeps the reset values of the registers keeps the reset state. -/
theorem exec_reset_of_engineAfter {i : Instr} (hc : i ≠ .cia) (hm : i ≠ .mcc)
    (kept : engineAfter i Engine.atReset = Engine.atReset) : exec i State.reset = .next State.reset := by
  have eng : engineAfter i State.reset.eng = State.reset.eng := kept
  rw [exec_eq_engineAfter _ hc hm, eng, withEng_self]

/-- Settles O46: CNT is 0, so the row commands access no word; the others find zero operands. -/
theorem commandsOnTheResetStateAreDefined : Obligations.CommandsOnTheResetStateAreDefined := by
  refine ⟨?cia, ?mcc, ?pack, ?rint, ?pmul, ?pdiv⟩
  case cia => exact (exec_cia_next_iff _ _).2 ⟨by decide, by decide, rfl⟩
  case mcc => exact (exec_mcc_next_iff _ _).2 ⟨by decide, rfl⟩
  case pack | rint | pmul => exact exec_reset_of_engineAfter (by decide) (by decide) (by decide)
  case pdiv =>
    rw [exec_eq_engineAfter _ (by decide) (by decide), engineAfter_pdiv_zero rfl]
    rfl

end Sys2Proof.Machine
end
